-- ==== Sys2Proof/Word.lean ====
section
/-! DEFINITION. The machine's words: what the spec treats as bits (R5, R7, R20, R24, R33, R41). -/

namespace Sys2Proof

/-- A register, a memory cell, an address or an opcode byte: 8 bits, unsigned 0 to 255 (R5 `XLEN`, R20, R33, R41). -/
abbrev Byte := BitVec 8

/-- The pc: 9 bits (R5 `PCW`, R24).
Under `OOB_POLICY = wrap` the spec's pc is 8 bits: there bit 8 stays 0 (notes/assumptions/4.md). -/
abbrev PcWord := BitVec 9

/-- A resolved register number, 0 to 7 (R5 `NREG`, R20). -/
abbrev RegIndex := Fin 8

end Sys2Proof
end

