-- ==== Sys2Proof/Config.lean ====
section
/-! DEFINITION. The parameters of the machine (R5, R40): types only.
Their default values stand in Machine/Parameters.lean and Decode.lean.
The one value the spec leaves to the host (R91, U11) is the opaque constant at the end. -/

namespace Sys2Proof

/-- `OOB_POLICY` (R5, R10): what a value outside its range does. -/
inductive OobPolicy where
  /-- raise `OutOfRange` -/
  | fault
  /-- reduce modulo the range -/
  | wrap
deriving DecidableEq, Repr

/-- The 34 mnemonics of R64 (spec/opcode_table.json), in the table's order. -/
inductive Op where
  | nop | hlt | ldi | ld | st | push | pop | prn | pra | call | ret | int | iret
  | jmp | jeq | jne | jgt | jlt | jle | jge
  | add | sub | mul | div | mod | inc | dec | cmp | and | not | or | xor | shl | shr
deriving DecidableEq, Repr

/-- `OPCODE_MAP` (R5, R64): one opcode byte for each mnemonic.
The constraints a map must meet are `OpcodeMap.wf` (R65). -/
structure OpcodeMap where
  nop : Byte
  hlt : Byte
  ldi : Byte
  ld : Byte
  st : Byte
  push : Byte
  pop : Byte
  prn : Byte
  pra : Byte
  call : Byte
  ret : Byte
  int : Byte
  iret : Byte
  jmp : Byte
  jeq : Byte
  jne : Byte
  jgt : Byte
  jlt : Byte
  jle : Byte
  jge : Byte
  add : Byte
  sub : Byte
  mul : Byte
  div : Byte
  mod : Byte
  inc : Byte
  dec : Byte
  cmp : Byte
  and : Byte
  not : Byte
  or : Byte
  xor : Byte
  shl : Byte
  shr : Byte
deriving DecidableEq, Repr

/-- The three parameters of R5 and R40. -/
structure Config where
  /-- `OOB_POLICY` -/
  oob : OobPolicy
  /-- `SP_INIT`, what reset writes to register 7 -/
  spInit : Byte
  /-- `OPCODE_MAP` -/
  opcodeMap : OpcodeMap
deriving DecidableEq, Repr

/-- FREE VALUE (R91, U11; notes/assumptions/7.md): the character the host shows for a PRA code of 128 to 255.
The spec leaves it to the host, so nothing constrains it. -/
opaque Config.hostCharacter : Byte → Char

end Sys2Proof
end

