-- ==== Sys2Proof/Syntax.lean ====
section
/-! DEFINITION. The instructions (R64, R72): one constructor for each row of spec/opcode_table.json. -/

namespace Sys2Proof

/-- A register operand byte as it stands in memory (R62): the register number once `RegIdx` has resolved it (R85). -/
abbrev RegOperand := Byte

/-- The 34 instructions, each with the operand bytes of its format in address order (R43, R60). -/
inductive Instr where
  | nop
  | hlt
  | ldi (n : RegOperand) (imm : Byte)
  | ld (a b : RegOperand)
  | st (a b : RegOperand)
  | push (n : RegOperand)
  | pop (n : RegOperand)
  | prn (n : RegOperand)
  | pra (n : RegOperand)
  | call (n : RegOperand)
  | ret
  | int (n : RegOperand)
  | iret
  | jmp (n : RegOperand)
  | jeq (n : RegOperand)
  | jne (n : RegOperand)
  | jgt (n : RegOperand)
  | jlt (n : RegOperand)
  | jle (n : RegOperand)
  | jge (n : RegOperand)
  | add (a b : RegOperand)
  | sub (a b : RegOperand)
  | mul (a b : RegOperand)
  | div (a b : RegOperand)
  | mod (a b : RegOperand)
  | inc (a : RegOperand)
  | dec (a : RegOperand)
  | cmp (a b : RegOperand)
  | and (a b : RegOperand)
  | not (a : RegOperand)
  | or (a b : RegOperand)
  | xor (a b : RegOperand)
  | shl (a b : RegOperand)
  | shr (a b : RegOperand)
deriving DecidableEq, Repr

end Sys2Proof
end

