-- ==== Sys2Proof/WellFormed.lean ====
section
/-! DEFINITION. Which instruction terms have an encoding of R64: every register operand byte has its bits 7:3 zero
(R62, R69). An immediate has no check (R63). -/

namespace Sys2Proof

/-- A register operand byte `00000rrr` (R62). -/
def RegOperand.wellFormed (n : RegOperand) : Bool := decide (n.toNat ≤ 7)

/-- The register operand bytes of an instruction, first operand first (R60, R85). -/
def Instr.regOperands : Instr → List RegOperand
  | .nop | .hlt | .ret | .iret => []
  | .ldi n _ => [n]
  | .push n | .pop n | .prn n | .pra n | .call n | .int n
  | .jmp n | .jeq n | .jne n | .jgt n | .jlt n | .jle n | .jge n => [n]
  | .inc a | .dec a | .not a => [a]
  | .ld a b | .st a b | .add a b | .sub a b | .mul a b | .div a b | .mod a b | .cmp a b
  | .and a b | .or a b | .xor a b | .shl a b | .shr a b => [a, b]

/-- Every register operand names one of the eight registers (R62, R69). -/
def Instr.wellFormed (i : Instr) : Bool := i.regOperands.all RegOperand.wellFormed

end Sys2Proof
end

