-- ==== Sys2Proof/Decode.lean ====
section
/-! DEFINITION. The instruction encoding (R60 to R70): the opcode map and its constraints, the descriptor of each
opcode, the decoder and the encoder. -/

namespace Sys2Proof

/-- The four instruction formats of R60. -/
inductive Format where
  | z | r | rr | ri
deriving DecidableEq, Repr

/-- Every mnemonic once, in the order of R64. -/
def Op.all : List Op :=
  [.nop, .hlt, .ldi, .ld, .st, .push, .pop, .prn, .pra, .call, .ret, .int, .iret,
   .jmp, .jeq, .jne, .jgt, .jlt, .jle, .jge] ++
  [.add, .sub, .mul, .div, .mod, .inc, .dec, .cmp, .and, .not, .or, .xor, .shl, .shr]

/-- The format column of R60 and R64. -/
def Op.format : Op → Format
  | .nop | .hlt | .ret | .iret => .z
  | .prn | .pra | .push | .pop | .call | .int
  | .jmp | .jeq | .jne | .jgt | .jlt | .jle | .jge
  | .inc | .dec | .not => .r
  | .ld | .st | .cmp | .add | .sub | .mul | .div | .mod
  | .and | .or | .xor | .shl | .shr => .rr
  | .ldi => .ri

/-- The number of operand bytes of a format (R60). -/
def Format.operandCount : Format → Nat
  | .z => 0
  | .r => 1
  | .rr => 2
  | .ri => 2

/-- The `N` of an instruction (R60, R67): how many operand bytes follow its opcode byte. -/
def Op.operandCount (op : Op) : Nat := op.format.operandCount

/-- The `C` of R61 and R67: the handler writes pc itself, so the dispatcher does not advance it (R86). -/
def Op.setsPc : Op → Bool
  | .call | .ret | .int | .iret
  | .jmp | .jeq | .jne | .jgt | .jlt | .jle | .jge => true
  | .nop | .hlt | .ldi | .ld | .st | .push | .pop | .prn | .pra
  | .add | .sub | .mul | .div | .mod | .inc | .dec | .cmp
  | .and | .not | .or | .xor | .shl | .shr => false

/-- The `A` of R61 and R67: the instruction is routed through the ALU (the thirteen ALU ops and CMP, C4). -/
def Op.isAlu : Op → Bool
  | .add | .sub | .mul | .div | .mod | .inc | .dec | .cmp
  | .and | .not | .or | .xor | .shl | .shr => true
  | .nop | .hlt | .ldi | .ld | .st | .push | .pop | .prn | .pra | .call | .ret | .int | .iret
  | .jmp | .jeq | .jne | .jgt | .jlt | .jle | .jge => false

/-- The six conditional jumps (R122). -/
def Op.isConditionalJump (op : Op) : Bool := [Op.jeq, .jne, .jgt, .jlt, .jge, .jle].contains op

/-- Bits 7:6 of an opcode byte, the operand count (R60, R61). -/
def opcodeN (b : Byte) : Nat := b.toNat / 64

/-- Bit 5 of an opcode byte, the ALU mark (R61, D2). -/
def opcodeA (b : Byte) : Bool := b.getLsbD 5

/-- Bit 4 of an opcode byte, the sets-pc mark (R61, D2). -/
def opcodeC (b : Byte) : Bool := b.getLsbD 4

/-- Bits 3:0 of an opcode byte, the instruction identifier (R61, D2). -/
def opcodeI (b : Byte) : Nat := b.toNat % 16

/-- The opcode byte the map gives a mnemonic. -/
def OpcodeMap.byteOf (m : OpcodeMap) : Op → Byte
  | .nop => m.nop
  | .hlt => m.hlt
  | .ldi => m.ldi
  | .ld => m.ld
  | .st => m.st
  | .push => m.push
  | .pop => m.pop
  | .prn => m.prn
  | .pra => m.pra
  | .call => m.call
  | .ret => m.ret
  | .int => m.int
  | .iret => m.iret
  | .jmp => m.jmp
  | .jeq => m.jeq
  | .jne => m.jne
  | .jgt => m.jgt
  | .jlt => m.jlt
  | .jle => m.jle
  | .jge => m.jge
  | .add => m.add
  | .sub => m.sub
  | .mul => m.mul
  | .div => m.div
  | .mod => m.mod
  | .inc => m.inc
  | .dec => m.dec
  | .cmp => m.cmp
  | .and => m.and
  | .not => m.not
  | .or => m.or
  | .xor => m.xor
  | .shl => m.shl
  | .shr => m.shr

/-- The default `OPCODE_MAP`: the values of R64 (the spec's decision D1; notes/assumptions/1.md). -/
def OpcodeMap.standard : OpcodeMap where
  nop := 0x00#8
  hlt := 0x01#8
  ldi := 0x82#8
  ld := 0x83#8
  st := 0x84#8
  push := 0x45#8
  pop := 0x46#8
  prn := 0x47#8
  pra := 0x48#8
  call := 0x50#8
  ret := 0x11#8
  int := 0x52#8
  iret := 0x13#8
  jmp := 0x54#8
  jeq := 0x55#8
  jne := 0x56#8
  jgt := 0x57#8
  jlt := 0x58#8
  jle := 0x59#8
  jge := 0x5A#8
  add := 0xA0#8
  sub := 0xA1#8
  mul := 0xA2#8
  div := 0xA3#8
  mod := 0xA4#8
  inc := 0x65#8
  dec := 0x66#8
  cmp := 0xA7#8
  and := 0xA8#8
  not := 0x69#8
  or := 0xAA#8
  xor := 0xAB#8
  shl := 0xAC#8
  shr := 0xAD#8

/-- The constraints of R65 that a replaced `OPCODE_MAP` must keep: distinct opcodes, bits 7:6 the operand count,
the ALU mark and the sets-pc mark where R61 puts them, and the all-ones byte not an opcode.
DESIGN CHOICE (notes/assumptions/22.md): the last row of R65, on a zero cell, is not asked of a replaced map, so 0x00 may
be another mnemonic's opcode, or none; in the default map it is NOP. -/
def OpcodeMap.wf (m : OpcodeMap) : Bool :=
  decide (Op.all.map m.byteOf).Nodup &&
  Op.all.all fun op =>
    opcodeN (m.byteOf op) == op.operandCount && opcodeA (m.byteOf op) == op.isAlu &&
    opcodeC (m.byteOf op) == op.setsPc && m.byteOf op != 0xFF#8

/-- `OPCODE_MAP(ir)` (R66, R83): the mnemonic whose opcode byte is the whole of `ir`, if there is one. -/
def OpcodeMap.lookup (m : OpcodeMap) (ir : Byte) : Option Op :=
  Op.all.find? fun op => m.byteOf op == ir

/-- The dispatch descriptor of R67: operand count, sets-pc mark and ALU mark, with the mnemonic for the handler. -/
structure Descriptor where
  operandCount : Nat
  setsPc : Bool
  isAlu : Bool
  handler : Op
deriving DecidableEq, Repr

/-- The `instruction_dispatch_table` (R67): the descriptor of a recognised opcode byte. -/
def OpcodeMap.descriptor (m : OpcodeMap) (ir : Byte) : Option Descriptor :=
  (m.lookup ir).map fun op => ⟨op.operandCount, op.setsPc, op.isAlu, op⟩

/-- The mnemonic of an instruction. -/
def Instr.op : Instr → Op
  | .nop => .nop
  | .hlt => .hlt
  | .ldi _ _ => .ldi
  | .ld _ _ => .ld
  | .st _ _ => .st
  | .push _ => .push
  | .pop _ => .pop
  | .prn _ => .prn
  | .pra _ => .pra
  | .call _ => .call
  | .ret => .ret
  | .int _ => .int
  | .iret => .iret
  | .jmp _ => .jmp
  | .jeq _ => .jeq
  | .jne _ => .jne
  | .jgt _ => .jgt
  | .jlt _ => .jlt
  | .jle _ => .jle
  | .jge _ => .jge
  | .add _ _ => .add
  | .sub _ _ => .sub
  | .mul _ _ => .mul
  | .div _ _ => .div
  | .mod _ _ => .mod
  | .inc _ => .inc
  | .dec _ => .dec
  | .cmp _ _ => .cmp
  | .and _ _ => .and
  | .not _ => .not
  | .or _ _ => .or
  | .xor _ _ => .xor
  | .shl _ _ => .shl
  | .shr _ _ => .shr

/-- The operand bytes of an instruction in address order (R43, R60). -/
def Instr.operandBytes : Instr → List Byte
  | .nop | .hlt | .ret | .iret => []
  | .ldi n imm => [n, imm]
  | .push n | .pop n | .prn n | .pra n | .call n | .int n
  | .jmp n | .jeq n | .jne n | .jgt n | .jlt n | .jle n | .jge n => [n]
  | .inc a | .dec a | .not a => [a]
  | .ld a b | .st a b | .add a b | .sub a b | .mul a b | .div a b | .mod a b | .cmp a b
  | .and a b | .or a b | .xor a b | .shl a b | .shr a b => [a, b]

/-- The instruction a recognised opcode makes of its operand bytes (R43, R60): the byte at `pc + 1` is the first
operand, the byte at `pc + 2` the second. A format without an operand ignores the argument for it. -/
def Op.instr (op : Op) (opa opb : Byte) : Instr :=
  match op with
  | .nop => .nop
  | .hlt => .hlt
  | .ldi => .ldi opa opb
  | .ld => .ld opa opb
  | .st => .st opa opb
  | .push => .push opa
  | .pop => .pop opa
  | .prn => .prn opa
  | .pra => .pra opa
  | .call => .call opa
  | .ret => .ret
  | .int => .int opa
  | .iret => .iret
  | .jmp => .jmp opa
  | .jeq => .jeq opa
  | .jne => .jne opa
  | .jgt => .jgt opa
  | .jlt => .jlt opa
  | .jle => .jle opa
  | .jge => .jge opa
  | .add => .add opa opb
  | .sub => .sub opa opb
  | .mul => .mul opa opb
  | .div => .div opa opb
  | .mod => .mod opa opb
  | .inc => .inc opa
  | .dec => .dec opa
  | .cmp => .cmp opa opb
  | .and => .and opa opb
  | .not => .not opa
  | .or => .or opa opb
  | .xor => .xor opa opb
  | .shl => .shl opa opb
  | .shr => .shr opa opb

/-- Why a byte sequence is no instruction. -/
inductive DecodeError where
  /-- there is no byte at all -/
  | noOpcode
  /-- the first byte is not in the map (R68) -/
  | illegalOpcode (ir : Byte)
  /-- the sequence ends before the operand bytes of this mnemonic do -/
  | missingOperand (op : Op)
deriving DecidableEq, Repr

/-- The operand bytes that follow a recognised opcode byte (R60), and the bytes after them. -/
def decodeOperands (op : Op) (rest : List Byte) : Except DecodeError (Instr × List Byte) :=
  match op.format, rest with
  | .z, rest => .ok (op.instr 0 0, rest)
  | .r, opa :: rest => .ok (op.instr opa 0, rest)
  | .rr, opa :: opb :: rest => .ok (op.instr opa opb, rest)
  | .ri, opa :: opb :: rest => .ok (op.instr opa opb, rest)
  | _, _ => .error (.missingOperand op)

/-- The decoder (R66, R70): the instruction at the head of a byte sequence and the bytes after it.
Register operand bytes are kept as they stand: `RegIdx` resolves them when the instruction runs (R85). -/
def decode (m : OpcodeMap) : List Byte → Except DecodeError (Instr × List Byte)
  | [] => .error .noOpcode
  | ir :: rest =>
    match m.lookup ir with
    | none => .error (.illegalOpcode ir)
    | some op => decodeOperands op rest

/-- The encoder (R60, R64): the opcode byte, then the operand bytes at the next higher addresses. -/
def encode (m : OpcodeMap) (i : Instr) : List Byte := m.byteOf i.op :: i.operandBytes

/-- The bytes of an instruction word as spec/opcode_table.json numbers its bits: bit 0 is the least significant bit of
the opcode byte, the next byte is bits 15..8. Three bytes, the longest instruction (R60); bits from `nbits` up are 0. -/
def tableBytes (nbits w : Nat) : List Byte :=
  let v := w % 2 ^ nbits
  [BitVec.ofNat 8 v, BitVec.ofNat 8 (v / 256), BitVec.ofNat 8 (v / 65536)]

/-- The instruction the decoder reads from a table word, with the default `OPCODE_MAP`. -/
def decodeTableWord (nbits w : Nat) : Option Instr :=
  match decode OpcodeMap.standard (tableBytes nbits w) with
  | .ok (i, _) => some i
  | .error _ => none

end Sys2Proof
end

