-- ==== Sys2Proof/Machine/Parameters.lean ====
section
/-! DEFINITION. The default values of the parameters (R5). -/

namespace Sys2Proof

/-- `OOB_POLICY = fault`, `SP_INIT = 244`, `OPCODE_MAP` the table of R64 (R5; D1, D5, D7; notes/assumptions/1.md,
2.md and 3.md). -/
def Config.standard : Config where
  oob := .fault
  spInit := 244#8
  opcodeMap := OpcodeMap.standard

end Sys2Proof
end

