-- ==== Sys2Proof/Machine/State.lean ====
section
/-! DEFINITION. The state of the machine (R20 to R40), the reasons a step can stop, and the state after reset (R38). -/

namespace Sys2Proof.Machine

/-- The run status (R34). -/
inductive Status where
  | running | halted | faulted
deriving DecidableEq, Repr

/-- The kinds of `OutOfRange` (R171). -/
inductive RangeKind where
  | fetchAddr | operandAddr | regIndex | stackPointer | returnAddr
deriving DecidableEq, Repr

/-- The causes of a fault (R171), `OutOfRange` with its detail: the kind and the offending value. -/
inductive Cause where
  | illegalInstruction
  | divisionByZero
  | outOfRange (kind : RangeKind) (value : Int)
deriving DecidableEq, Repr

/-- The fault record (R35): the detail of the spec's record is part of `cause`. -/
structure FaultRecord where
  cause : Cause
  /-- the pc when the fault was raised -/
  addr : PcWord
  /-- the opcode byte, or none when no opcode byte was read (R82) -/
  opcode : Option Byte
deriving DecidableEq, Repr

/-- The two kinds of output event (R36). -/
inductive EventKind where
  | prn | pra
deriving DecidableEq, Repr

/-- One output event: a kind and a byte (R36). -/
structure Event where
  kind : EventKind
  value : Byte
deriving DecidableEq, Repr

/-- Memory (R33): the cells that do not hold 0, by rising address.
The canonical form is `Memory.wf`; an address with no entry reads as `Memory.unlisted`. -/
abbrev Memory := List Host.Cell

/-- The architectural state (R20, R24, R27, R30, R33 to R36), and the parameters of the machine that runs (R40).
No instruction changes `cfg` (notes/assumptions/2.md). -/
structure State where
  /-- the parameters of R5: not state of the spec's machine (R40), constant along every run -/
  cfg : Config
  /-- the eight general registers (R20), register 7 the stack pointer (R22) -/
  regs : Vector Byte 8
  /-- the program counter (R24) -/
  pc : PcWord
  /-- the flags register FL, `00000LGE` (R27) -/
  fl : Byte
  /-- the interrupt-enable bit (R30) -/
  ie : Bool
  /-- the 256 memory cells (R33) -/
  mem : Memory
  /-- the run status (R34) -/
  status : Status
  /-- the fault record (R35), none while no fault has been raised -/
  fault : Option FaultRecord
  /-- the output stream, oldest event first (R36) -/
  out : List Event
deriving DecidableEq, Repr

/-- The reasons a step stops with a fault of the interface: NONE.
Every fault of this hardware is a fault the spec describes (R171, R172): a step that raises one answers a next state
whose status is `FAULTED` and whose fault record is written, so nobody raises a `Fault`. Safe. -/
inductive Fault where
deriving DecidableEq, Repr

/-- The reasons a step is refused. -/
inductive Refusal where
  /-- raised by an arm of `exec` whose instruction has no meaning yet: no arm of this model raises it. Safe. -/
  | notModelled (mnemonic : String)
deriving DecidableEq, Repr

/-- The state after reset of a machine with given parameters (R38, R200). -/
def State.resetWith (cfg : Config) : State where
  cfg := cfg
  regs := #v[0, 0, 0, 0, 0, 0, 0, cfg.spInit]
  pc := 0
  fl := 0
  ie := false
  mem := []
  status := .running
  fault := none
  out := []

/-- The machine right after reset (R38) with the default parameters (R5). -/
def State.reset : State := State.resetWith Config.standard

end Sys2Proof.Machine
end

