-- ==== Sys2Proof/Machine/Ops.lean ====
section
/-! DEFINITION. The named operations over memory, registers, the pc and the output stream (R9), the range functions (R10),
raising a fault (R172), and the frame every instruction is performed in (R80, R86). -/

namespace Sys2Proof.Machine

/-! ### Memory (R33, R41, R42) -/

/-- What an address with no entry reads as: the reset contents of R33 and R38. -/
def Memory.unlisted : Byte := 0

/-- The byte in cell `a`. -/
def Memory.read : Memory → Nat → Byte
  | [], _ => Memory.unlisted
  | (k, w) :: m, a => if k = a then w else Memory.read m a

/-- `m` with entry `(a, v)` put before it, unless `v` is what `a` reads as without an entry. -/
def Memory.entry (a : Nat) (v : Byte) (m : Memory) : Memory :=
  if v = Memory.unlisted then m else (a, v) :: m

/-- `m` after `v` is written to cell `a`, in canonical form if `m` is. -/
def Memory.write : Memory → Nat → Byte → Memory
  | [], a, v => Memory.entry a v []
  | (k, w) :: m, a, v =>
    if a < k then Memory.entry a v ((k, w) :: m)
    else if a = k then Memory.entry a v m
    else (k, w) :: Memory.write m a v

/-- The canonical form: addresses strictly rising and at most 255, no entry equal to what its address reads as without
it. -/
def Memory.wf (m : Memory) : Bool :=
  decide (m.Pairwise fun c d => c.1 < d.1) && m.all fun c => decide (c.1 < 256) && c.2 != Memory.unlisted

/-- `MemRead(a, 1)` (R9): the second argument is always 1 (R42). -/
def State.memRead (s : State) (a : Byte) : Byte := s.mem.read a.toNat

/-- `MemWrite(a, 1, v)` (R9, R42). -/
def State.memWrite (s : State) (a v : Byte) : State := { s with mem := s.mem.write a.toNat v }

/-! ### Registers, pc, flags, output, status (R9) -/

/-- `x[r]` (R9, R20). -/
def State.reg (s : State) (r : RegIndex) : Byte := s.regs[r]

/-- `x[r] <- v` (R9, R20): every register is ordinary, register 0 too. -/
def State.setReg (s : State) (r : RegIndex) (v : Byte) : State := { s with regs := s.regs.set r v }

/-- Register 7, the stack pointer (R5, R22). -/
def spIndex : RegIndex := 7

/-- `pc <- t` (R9). -/
def State.setPc (s : State) (t : PcWord) : State := { s with pc := t }

/-- `pc <- v` for a byte: the target of a jump, call or return (R121). -/
def State.jumpTo (s : State) (v : Byte) : State := s.setPc (v.setWidth 9)

/-- `fl <- v` (R9). -/
def State.setFl (s : State) (v : Byte) : State := { s with fl := v }

/-- `emit(kind, v)` (R9, R36). -/
def State.emit (s : State) (k : EventKind) (v : Byte) : State := { s with out := s.out ++ [⟨k, v⟩] }

/-- `status <- HALTED` (R34, R89). -/
def State.halt (s : State) : State := { s with status := .halted }

/-! ### The range functions (R10) -/

/-- A computation that may raise a fault before anything is written (R9, R173). -/
abbrev Checked := Except Cause

/-- The common body of `Addr` and `Byte` (R10). -/
def inRange (p : OobPolicy) (what : RangeKind) (v : Int) : Checked Byte :=
  if 0 ≤ v ∧ v ≤ 255 then .ok (BitVec.ofInt 8 v)
  else
    match p with
    | .fault => .error (.outOfRange what v)
    | .wrap => .ok (BitVec.ofInt 8 v)

/-- `Addr(v, what)` (R10): the address of a cell. -/
def addr (p : OobPolicy) (what : RangeKind) (v : Int) : Checked Byte := inRange p what v

/-- `Byte(v, what)` (R10): a value to be stored in 8 bits. -/
def toByte (p : OobPolicy) (what : RangeKind) (v : Int) : Checked Byte := inRange p what v

/-- `RegIdx(b)` (R10, R85): the register an operand byte names. -/
def regIdx (p : OobPolicy) (b : RegOperand) : Checked RegIndex :=
  if b.toNat ≤ 7 then .ok (Fin.ofNat 8 b.toNat)
  else
    match p with
    | .fault => .error (.outOfRange .regIndex b.toNat)
    | .wrap => .ok (Fin.ofNat 8 b.toNat)

/-- `NextPc(v)` (R86): exact under `fault`, modulo 256 under `wrap`. -/
def nextPc (p : OobPolicy) (v : Nat) : PcWord :=
  match p with
  | .fault => BitVec.ofNat 9 v
  | .wrap => BitVec.ofNat 9 (v % 256)

/-! ### Raising a fault, and performing an instruction -/

/-- `raise` (R172): the fault record with `addr = pc`, the opcode byte or none, and the cause with its detail, then status
FAULTED, and nothing else. There is no handler and so no return from one (R175). -/
def State.raise (s : State) (opcode : Option Byte) (c : Cause) : State :=
  { s with fault := some ⟨c, s.pc, opcode⟩, status := .faulted }

/-- The dispatcher's last line (R80, R86): `1 + N` past the opcode byte unless the handler sets pc itself.
`s` is the state before the instruction, `t` the state its handler leaves. -/
def autoAdvance (op : Op) (s t : State) : State :=
  if op.setsPc then t else t.setPc (nextPc s.cfg.oob (s.pc.toNat + 1 + op.operandCount))

/-- Perform an instruction (R80): its handler's checks and writes, then the auto-advance.
A fault is raised on the state before the instruction, so that it is precise (R173). -/
def perform (op : Op) (s : State) (handler : Checked State) : Host.Outcome State Fault Refusal :=
  match handler with
  | .ok t => .next (autoAdvance op s t)
  | .error c => .next (s.raise (some (s.cfg.opcodeMap.byteOf op)) c)

end Sys2Proof.Machine
end

