-- ==== Sys2Proof/Machine/Operands.lean ====
section
/-! DEFINITION. The operand forms (R60, R85): resolving register operand bytes before the handler runs. -/

namespace Sys2Proof.Machine

/-- Format `R` and `RI`: `n = RegIdx(opa)`, then the handler (R85). -/
def withReg (s : State) (n : RegOperand) (handler : RegIndex → Checked State) : Checked State :=
  (regIdx s.cfg.oob n).bind handler

/-- Format `RR`: `a = RegIdx(opa)` then `b = RegIdx(opb)`, then the handler (R85). -/
def withRegs (s : State) (a b : RegOperand) (handler : RegIndex → RegIndex → Checked State) : Checked State :=
  (regIdx s.cfg.oob a).bind fun ra => (regIdx s.cfg.oob b).bind fun rb => handler ra rb

end Sys2Proof.Machine
end

