-- ==== Sys2Proof/Machine/Alu.lean ====
section
/-! DEFINITION. The thirteen ALU instructions (R140 to R153).
The `8bit_alu` is a pure function of one or two register values; the result goes to the first register and nowhere
else, and no flag is written (R140). -/

namespace Sys2Proof.Machine

/-! ### The functions of the `8bit_alu` -/

/-- Addition modulo 256 (R141). -/
def aluAdd (x y : Byte) : Byte := x + y

/-- Subtraction modulo 256 (R142). -/
def aluSub (x y : Byte) : Byte := x - y

/-- The low byte of the product (R143). -/
def aluMul (x y : Byte) : Byte := x * y

/-- The unsigned quotient, for a divisor that is not 0 (R144). -/
def aluDiv (x y : Byte) : Byte := x / y

/-- The unsigned remainder, for a divisor that is not 0 (R145). -/
def aluMod (x y : Byte) : Byte := x % y

/-- Increment modulo 256 (R146). -/
def aluInc (x : Byte) : Byte := x + 1

/-- Decrement modulo 256 (R147). -/
def aluDec (x : Byte) : Byte := x - 1

/-- Bitwise and (R148). -/
def aluAnd (x y : Byte) : Byte := x &&& y

/-- Bitwise or (R149). -/
def aluOr (x y : Byte) : Byte := x ||| y

/-- Bitwise exclusive or (R150). -/
def aluXor (x y : Byte) : Byte := x ^^^ y

/-- Complement within 8 bits (R151). -/
def aluNot (x : Byte) : Byte := ~~~x

/-- Left shift by the whole 8-bit amount (R152, D17). -/
def aluShl (x k : Byte) : Byte := x <<< k.toNat

/-- Logical right shift by the whole 8-bit amount (R153, D17). -/
def aluShr (x k : Byte) : Byte := x >>> k.toNat

/-! ### The instruction forms -/

/-- A two-register form (R140): both registers are read before the first is written (R156). -/
def aluTwo (f : Byte → Byte → Byte) (a b : RegOperand) (s : State) : Checked State :=
  withRegs s a b fun ra rb => .ok (s.setReg ra (f (s.reg ra) (s.reg rb)))

/-- DIV and MOD (R144, R145): the divisor is tested after both register operands are resolved (R174). -/
def aluDivide (f : Byte → Byte → Byte) (a b : RegOperand) (s : State) : Checked State :=
  withRegs s a b fun ra rb =>
    if s.reg rb = 0 then .error .divisionByZero else .ok (s.setReg ra (f (s.reg ra) (s.reg rb)))

/-- A one-register form (R140). -/
def aluOne (f : Byte → Byte) (a : RegOperand) (s : State) : Checked State :=
  withReg s a fun ra => .ok (s.setReg ra (f (s.reg ra)))

/-! ### The instructions -/

/-- The handler of ADD Ra, Rb (R141). -/
def handleAdd (a b : RegOperand) (s : State) : Checked State := aluTwo aluAdd a b s

/-- ADD Ra, Rb (R141). -/
def execAdd (a b : RegOperand) (s : State) : Host.Outcome State Fault Refusal := perform .add s (handleAdd a b s)

/-- The handler of SUB Ra, Rb (R142). -/
def handleSub (a b : RegOperand) (s : State) : Checked State := aluTwo aluSub a b s

/-- SUB Ra, Rb (R142). -/
def execSub (a b : RegOperand) (s : State) : Host.Outcome State Fault Refusal := perform .sub s (handleSub a b s)

/-- The handler of MUL Ra, Rb (R143). -/
def handleMul (a b : RegOperand) (s : State) : Checked State := aluTwo aluMul a b s

/-- MUL Ra, Rb (R143). -/
def execMul (a b : RegOperand) (s : State) : Host.Outcome State Fault Refusal := perform .mul s (handleMul a b s)

/-- The handler of DIV Ra, Rb (R144). -/
def handleDiv (a b : RegOperand) (s : State) : Checked State := aluDivide aluDiv a b s

/-- DIV Ra, Rb (R144). -/
def execDiv (a b : RegOperand) (s : State) : Host.Outcome State Fault Refusal := perform .div s (handleDiv a b s)

/-- The handler of MOD Ra, Rb (R145). -/
def handleMod (a b : RegOperand) (s : State) : Checked State := aluDivide aluMod a b s

/-- MOD Ra, Rb (R145). -/
def execMod (a b : RegOperand) (s : State) : Host.Outcome State Fault Refusal := perform .mod s (handleMod a b s)

/-- The handler of INC Ra (R146). -/
def handleInc (a : RegOperand) (s : State) : Checked State := aluOne aluInc a s

/-- INC Ra (R146). -/
def execInc (a : RegOperand) (s : State) : Host.Outcome State Fault Refusal := perform .inc s (handleInc a s)

/-- The handler of DEC Ra (R147). -/
def handleDec (a : RegOperand) (s : State) : Checked State := aluOne aluDec a s

/-- DEC Ra (R147). -/
def execDec (a : RegOperand) (s : State) : Host.Outcome State Fault Refusal := perform .dec s (handleDec a s)

/-- The handler of AND Ra, Rb (R148). -/
def handleAnd (a b : RegOperand) (s : State) : Checked State := aluTwo aluAnd a b s

/-- AND Ra, Rb (R148). -/
def execAnd (a b : RegOperand) (s : State) : Host.Outcome State Fault Refusal := perform .and s (handleAnd a b s)

/-- The handler of OR Ra, Rb (R149). -/
def handleOr (a b : RegOperand) (s : State) : Checked State := aluTwo aluOr a b s

/-- OR Ra, Rb (R149). -/
def execOr (a b : RegOperand) (s : State) : Host.Outcome State Fault Refusal := perform .or s (handleOr a b s)

/-- The handler of XOR Ra, Rb (R150). -/
def handleXor (a b : RegOperand) (s : State) : Checked State := aluTwo aluXor a b s

/-- XOR Ra, Rb (R150). -/
def execXor (a b : RegOperand) (s : State) : Host.Outcome State Fault Refusal := perform .xor s (handleXor a b s)

/-- The handler of NOT Ra (R151). -/
def handleNot (a : RegOperand) (s : State) : Checked State := aluOne aluNot a s

/-- NOT Ra (R151). -/
def execNot (a : RegOperand) (s : State) : Host.Outcome State Fault Refusal := perform .not s (handleNot a s)

/-- The handler of SHL Ra, Rb (R152). -/
def handleShl (a b : RegOperand) (s : State) : Checked State := aluTwo aluShl a b s

/-- SHL Ra, Rb (R152). -/
def execShl (a b : RegOperand) (s : State) : Host.Outcome State Fault Refusal := perform .shl s (handleShl a b s)

/-- The handler of SHR Ra, Rb (R153). -/
def handleShr (a b : RegOperand) (s : State) : Checked State := aluTwo aluShr a b s

/-- SHR Ra, Rb (R153). -/
def execShr (a b : RegOperand) (s : State) : Host.Outcome State Fault Refusal := perform .shr s (handleShr a b s)

end Sys2Proof.Machine
end

