-- ==== Sys2Proof/Machine/Flags.lean ====
section
/-! DEFINITION. The flags register FL (R27), what CMP makes of it (R120), and the conditions of the six conditional jumps
(R123 to R129). No other instruction computes a flag (R28). -/

namespace Sys2Proof.Machine

/-- `fl.L`, bit 2 (R27). -/
def flagL (fl : Byte) : Bool := fl.getLsbD 2

/-- `fl.G`, bit 1 (R27). -/
def flagG (fl : Byte) : Bool := fl.getLsbD 1

/-- `fl.E`, bit 0 (R27). -/
def flagE (fl : Byte) : Bool := fl.getLsbD 0

/-- `0b00000 ++ L ++ G ++ E` (R27, R120). -/
def flByte (l g e : Bool) : Byte := 0#5 ++ BitVec.ofBool l ++ BitVec.ofBool g ++ BitVec.ofBool e

/-- The FL that comparing `a` with `b` gives (R120): unsigned, all three flags at once. -/
def compareFlags (a b : Byte) : Byte :=
  flByte (decide (a.toNat < b.toNat)) (decide (b.toNat < a.toNat)) (decide (a.toNat = b.toNat))

/-- `cond(fl)` of JEQ (R123). -/
def condEq (fl : Byte) : Bool := flagE fl

/-- `cond(fl)` of JNE (R124). -/
def condNe (fl : Byte) : Bool := !flagE fl

/-- `cond(fl)` of JGT (R125). -/
def condGt (fl : Byte) : Bool := flagG fl

/-- `cond(fl)` of JLT (R126). -/
def condLt (fl : Byte) : Bool := flagL fl

/-- `cond(fl)` of JGE (R127). -/
def condGe (fl : Byte) : Bool := flagG fl || flagE fl

/-- `cond(fl)` of JLE (R128). -/
def condLe (fl : Byte) : Bool := flagL fl || flagE fl

end Sys2Proof.Machine
end

