-- ==== Sys2Proof/Machine/CompareJump.lean ====
section
/-! DEFINITION. CMP, JMP and the six conditional jumps (R120 to R128). -/

namespace Sys2Proof.Machine

/-- The handler of CMP Ra, Rb (R120): all of FL is written. -/
def handleCmp (a b : RegOperand) (s : State) : Checked State :=
  withRegs s a b fun ra rb => .ok (s.setFl (compareFlags (s.reg ra) (s.reg rb)))

/-- CMP Ra, Rb (R120). -/
def execCmp (a b : RegOperand) (s : State) : Host.Outcome State Fault Refusal := perform .cmp s (handleCmp a b s)

/-- The handler of JMP Rn (R121). -/
def handleJmp (n : RegOperand) (s : State) : Checked State := withReg s n fun r => .ok (s.jumpTo (s.reg r))

/-- JMP Rn (R121). -/
def execJmp (n : RegOperand) (s : State) : Host.Outcome State Fault Refusal := perform .jmp s (handleJmp n s)

/-- The form of a conditional jump (R122): the operand is resolved taken or not (R85), and the handler itself advances pc
when the jump is not taken (R86). -/
def jumpIf (cond : Byte → Bool) (n : RegOperand) (s : State) : Checked State :=
  withReg s n fun r =>
    .ok (if cond s.fl then s.jumpTo (s.reg r) else s.setPc (nextPc s.cfg.oob (s.pc.toNat + 2)))

/-- The handler of JEQ Rn (R123). -/
def handleJeq (n : RegOperand) (s : State) : Checked State := jumpIf condEq n s

/-- JEQ Rn (R123). -/
def execJeq (n : RegOperand) (s : State) : Host.Outcome State Fault Refusal := perform .jeq s (handleJeq n s)

/-- The handler of JNE Rn (R124). -/
def handleJne (n : RegOperand) (s : State) : Checked State := jumpIf condNe n s

/-- JNE Rn (R124). -/
def execJne (n : RegOperand) (s : State) : Host.Outcome State Fault Refusal := perform .jne s (handleJne n s)

/-- The handler of JGT Rn (R125). -/
def handleJgt (n : RegOperand) (s : State) : Checked State := jumpIf condGt n s

/-- JGT Rn (R125). -/
def execJgt (n : RegOperand) (s : State) : Host.Outcome State Fault Refusal := perform .jgt s (handleJgt n s)

/-- The handler of JLT Rn (R126). -/
def handleJlt (n : RegOperand) (s : State) : Checked State := jumpIf condLt n s

/-- JLT Rn (R126). -/
def execJlt (n : RegOperand) (s : State) : Host.Outcome State Fault Refusal := perform .jlt s (handleJlt n s)

/-- The handler of JGE Rn (R127). -/
def handleJge (n : RegOperand) (s : State) : Checked State := jumpIf condGe n s

/-- JGE Rn (R127). -/
def execJge (n : RegOperand) (s : State) : Host.Outcome State Fault Refusal := perform .jge s (handleJge n s)

/-- The handler of JLE Rn (R128). -/
def handleJle (n : RegOperand) (s : State) : Checked State := jumpIf condLe n s

/-- JLE Rn (R128). -/
def execJle (n : RegOperand) (s : State) : Host.Outcome State Fault Refusal := perform .jle s (handleJle n s)

end Sys2Proof.Machine
end

