-- ==== Sys2Proof/Machine/DataTransfer.lean ====
section
/-! DEFINITION. LDI, LD, ST (R100 to R102). -/

namespace Sys2Proof.Machine

/-- The handler of LDI Rn, imm (R100, R63): the immediate as it stands. -/
def handleLdi (n : RegOperand) (imm : Byte) (s : State) : Checked State := withReg s n fun r => .ok (s.setReg r imm)

/-- LDI Rn, imm (R100, R63). -/
def execLdi (n : RegOperand) (imm : Byte) (s : State) : Host.Outcome State Fault Refusal := perform .ldi s (handleLdi n imm s)

/-- The handler of LD Ra, Rb (R101): `x[a] <- mem[x[b]]`. -/
def handleLd (a b : RegOperand) (s : State) : Checked State :=
  withRegs s a b fun ra rb => .ok (s.setReg ra (s.memRead (s.reg rb)))

/-- LD Ra, Rb (R101). -/
def execLd (a b : RegOperand) (s : State) : Host.Outcome State Fault Refusal := perform .ld s (handleLd a b s)

/-- The cell ST stores to (R102): the first register is the address. -/
def stAddress (s : State) (ra : RegIndex) : Byte := s.reg ra

/-- The handler of ST Ra, Rb (R102): `mem[x[a]] <- x[b]`. -/
def handleSt (a b : RegOperand) (s : State) : Checked State :=
  withRegs s a b fun ra rb => .ok (s.memWrite (stAddress s ra) (s.reg rb))

/-- ST Ra, Rb (R102). -/
def execSt (a b : RegOperand) (s : State) : Host.Outcome State Fault Refusal := perform .st s (handleSt a b s)

end Sys2Proof.Machine
end

