-- ==== Sys2Proof/Machine/Stack.lean ====
section
/-! DEFINITION. PUSH, POP, CALL, RET (R110 to R114): a full descending stack through register 7. -/

namespace Sys2Proof.Machine

/-- `Byte(x[7] - 1, StackPointer)` (R111, R113): the stack pointer after a push, and the cell the push writes. -/
def pushPointer (s : State) : Checked Byte :=
  toByte s.cfg.oob .stackPointer ((s.reg spIndex).toNat - 1)

/-- The handler of PUSH Rn (R111): the pushed register is read after register 7 was written (D20). -/
def handlePush (n : RegOperand) (s : State) : Checked State :=
  withReg s n fun r =>
    (pushPointer s).bind fun sp =>
      let s' := s.setReg spIndex sp
      .ok (s'.memWrite sp (s'.reg r))

/-- PUSH Rn (R111). -/
def execPush (n : RegOperand) (s : State) : Host.Outcome State Fault Refusal := perform .push s (handlePush n s)

/-- What register 7 is about to become in POP (R112): one more than the popped byte if the operand is register 7
(D20), else one more than register 7. -/
def popPointer (s : State) (r : RegIndex) : Checked Byte :=
  let base := if r = spIndex then s.memRead (s.reg spIndex) else s.reg spIndex
  toByte s.cfg.oob .stackPointer (base.toNat + 1)

/-- The handler of POP Rn (R112). -/
def handlePop (n : RegOperand) (s : State) : Checked State :=
  withReg s n fun r =>
    (popPointer s r).bind fun sp =>
      .ok ((s.setReg r (s.memRead (s.reg spIndex))).setReg spIndex sp)

/-- POP Rn (R112). -/
def execPop (n : RegOperand) (s : State) : Host.Outcome State Fault Refusal := perform .pop s (handlePop n s)

/-- `Byte(pc + 2, ReturnAddr)` (R113): the address after the two-byte CALL. -/
def returnAddress (s : State) : Checked Byte := toByte s.cfg.oob .returnAddr (s.pc.toNat + 2)

/-- The handler of CALL Rn (R113): the return address is checked before the stack pointer, and the target is read
after the push (D20). -/
def handleCall (n : RegOperand) (s : State) : Checked State :=
  withReg s n fun r =>
    (returnAddress s).bind fun ret =>
      (pushPointer s).bind fun sp =>
        let s' := (s.setReg spIndex sp).memWrite sp ret
        .ok (s'.jumpTo (s'.reg r))

/-- CALL Rn (R113). -/
def execCall (n : RegOperand) (s : State) : Host.Outcome State Fault Refusal := perform .call s (handleCall n s)

/-- `Byte(x[7] + 1, StackPointer)` (R114): the stack pointer after a return. -/
def retPointer (s : State) : Checked Byte := toByte s.cfg.oob .stackPointer ((s.reg spIndex).toNat + 1)

/-- The handler of RET (R114). -/
def handleRet (s : State) : Checked State :=
  (retPointer s).bind fun sp =>
    .ok ((s.setReg spIndex sp).jumpTo (s.memRead (s.reg spIndex)))

/-- RET (R114). -/
def execRet (s : State) : Host.Outcome State Fault Refusal := perform .ret s (handleRet s)

end Sys2Proof.Machine
end

