-- ==== Sys2Proof/Machine/System.lean ====
section
/-! DEFINITION. NOP, HLT, PRN, PRA, INT, IRET (R88 to R93). -/

namespace Sys2Proof.Machine

/-- The handler of NOP (R88): only the auto-advance. -/
def handleNop (s : State) : Checked State := .ok s

/-- NOP (R88). -/
def execNop (s : State) : Host.Outcome State Fault Refusal := perform .nop s (handleNop s)

/-- The handler of HLT (R89): status HALTED, then the auto-advance (D9). -/
def handleHlt (s : State) : Checked State := .ok s.halt

/-- HLT (R89). -/
def execHlt (s : State) : Host.Outcome State Fault Refusal := perform .hlt s (handleHlt s)

/-- The handler of PRN Rn (R90). -/
def handlePrn (n : RegOperand) (s : State) : Checked State := withReg s n fun r => .ok (s.emit .prn (s.reg r))

/-- PRN Rn (R90). -/
def execPrn (n : RegOperand) (s : State) : Host.Outcome State Fault Refusal := perform .prn s (handlePrn n s)

/-- The handler of PRA Rn (R91). -/
def handlePra (n : RegOperand) (s : State) : Checked State := withReg s n fun r => .ok (s.emit .pra (s.reg r))

/-- PRA Rn (R91). -/
def execPra (n : RegOperand) (s : State) : Host.Outcome State Fault Refusal := perform .pra s (handlePra n s)

/-- The handler of INT Rn (R92, D10): `IllegalInstruction`, the operand byte not read and not resolved. -/
def handleInt (_n : RegOperand) (_s : State) : Checked State := .error .illegalInstruction

/-- INT Rn (R92, D10). -/
def execInt (n : RegOperand) (s : State) : Host.Outcome State Fault Refusal := perform .int s (handleInt n s)

/-- The handler of IRET (R93, D10): `IllegalInstruction`; nothing is popped. -/
def handleIret (_s : State) : Checked State := .error .illegalInstruction

/-- IRET (R93, D10). -/
def execIret (s : State) : Host.Outcome State Fault Refusal := perform .iret s (handleIret s)

end Sys2Proof.Machine
end

