-- ==== Sys2Proof/Machine/Dispatch.lean ====
section
/-! DEFINITION. The dispatch to the meaning of each instruction (R67, R80 `perform d.handler`). -/

namespace Sys2Proof.Machine

/-- One instruction performed at a state whose pc is at its opcode byte (R80, from the register operands on). -/
def exec (i : Instr) (s : State) : Host.Outcome State Fault Refusal :=
  match i with
  | .nop => Sys2Proof.Machine.execNop s
  | .hlt => Sys2Proof.Machine.execHlt s
  | .ldi n imm => Sys2Proof.Machine.execLdi n imm s
  | .ld a b => Sys2Proof.Machine.execLd a b s
  | .st a b => Sys2Proof.Machine.execSt a b s
  | .push n => Sys2Proof.Machine.execPush n s
  | .pop n => Sys2Proof.Machine.execPop n s
  | .prn n => Sys2Proof.Machine.execPrn n s
  | .pra n => Sys2Proof.Machine.execPra n s
  | .call n => Sys2Proof.Machine.execCall n s
  | .ret => Sys2Proof.Machine.execRet s
  | .int n => Sys2Proof.Machine.execInt n s
  | .iret => Sys2Proof.Machine.execIret s
  | .jmp n => Sys2Proof.Machine.execJmp n s
  | .jeq n => Sys2Proof.Machine.execJeq n s
  | .jne n => Sys2Proof.Machine.execJne n s
  | .jgt n => Sys2Proof.Machine.execJgt n s
  | .jlt n => Sys2Proof.Machine.execJlt n s
  | .jle n => Sys2Proof.Machine.execJle n s
  | .jge n => Sys2Proof.Machine.execJge n s
  | .add a b => Sys2Proof.Machine.execAdd a b s
  | .sub a b => Sys2Proof.Machine.execSub a b s
  | .mul a b => Sys2Proof.Machine.execMul a b s
  | .div a b => Sys2Proof.Machine.execDiv a b s
  | .mod a b => Sys2Proof.Machine.execMod a b s
  | .inc a => Sys2Proof.Machine.execInc a s
  | .dec a => Sys2Proof.Machine.execDec a s
  | .cmp a b => Sys2Proof.Machine.execCmp a b s
  | .and a b => Sys2Proof.Machine.execAnd a b s
  | .not a => Sys2Proof.Machine.execNot a s
  | .or a b => Sys2Proof.Machine.execOr a b s
  | .xor a b => Sys2Proof.Machine.execXor a b s
  | .shl a b => Sys2Proof.Machine.execShl a b s
  | .shr a b => Sys2Proof.Machine.execShr a b s

end Sys2Proof.Machine
end

