-- ==== Sys2Proof/Machine/Fetch.lean ====
section
/-! DEFINITION. The fetch of an instruction's bytes and its recognition (R80, R82 to R84).
The latches `ir`, `opa` and `opb` are local values here, as R37 allows. -/

namespace Sys2Proof.Machine

/-- The opcode byte: `MemRead(Addr(pc, FetchAddr), 1)` (R82). -/
def fetchOpcode (s : State) : Checked Byte :=
  (addr s.cfg.oob .fetchAddr s.pc.toNat).map s.memRead

/-- The operand byte at `pc + k`: `MemRead(Addr(pc + k, OperandAddr), 1)` (R84). -/
def fetchOperand (s : State) (k : Nat) : Checked Byte :=
  (addr s.cfg.oob .operandAddr (s.pc.toNat + k : Nat)).map s.memRead

/-- The operand bytes of an instruction with `N = n`, `pc + 1` before `pc + 2`, and no byte it does not have (R84).
A byte it does not have is given as 0 and used by no format. -/
def fetchOperands (s : State) (n : Nat) : Checked (Byte × Byte) :=
  match n with
  | 0 => .ok (0, 0)
  | 1 => (fetchOperand s 1).map fun opa => (opa, 0)
  | _ => (fetchOperand s 1).bind fun opa => (fetchOperand s 2).map fun opb => (opa, opb)

/-- The instruction at the pc, or the fault its fetch raises with the opcode byte if one was read (R80, R172): the
fetch address, then the opcode with INT and IRET, then the operand addresses (R174). -/
def fetch (s : State) : Except (Option Byte × Cause) Instr :=
  match fetchOpcode s with
  | .error c => .error (none, c)
  | .ok ir =>
    match s.cfg.opcodeMap.lookup ir with
    | none => .error (some ir, .illegalInstruction)
    | some op =>
      if op = .int ∨ op = .iret then .error (some ir, .illegalInstruction)
      else
        match fetchOperands s op.operandCount with
        | .error c => .error (some ir, c)
        | .ok (opa, opb) => .ok (op.instr opa opb)

/-- The bytes a fetch at the pc can reach (R82, R84), at most the three of the longest instruction (R60): the cells
`pc`, `pc + 1`, `pc + 2`, up to the first that is out of range. -/
def codeBytes (s : State) : List Byte :=
  match fetchOpcode s, fetchOperand s 1, fetchOperand s 2 with
  | .ok ir, .ok opa, .ok opb => [ir, opa, opb]
  | .ok ir, .ok opa, .error _ => [ir, opa]
  | .ok ir, .error _, _ => [ir]
  | .error _, _, _ => []

/-- The cell `pc + k` written with `v`, if there is such a cell (R10). -/
def writeCodeByte (s : State) (k : Nat) (v : Byte) : State :=
  match addr s.cfg.oob .fetchAddr (s.pc.toNat + k : Nat) with
  | .ok a => s.memWrite a v
  | .error _ => s

/-- `bytes` written to the cells from `pc + k` on, in ascending order. -/
def writeCode (s : State) (k : Nat) : List Byte → State
  | [] => s
  | v :: bytes => writeCode (writeCodeByte s k v) (k + 1) bytes

end Sys2Proof.Machine
end

