-- ==== Sys2Proof/Machine/Step.lean ====
section
/-! DEFINITION. The step of the machine (R80, R87). -/

namespace Sys2Proof.Machine

/-- One fetch-decode-execute cycle (R80). A machine that is not RUNNING takes no step: nothing changes (R87). -/
def step (s : State) : Host.Outcome State Fault Refusal :=
  match s.status with
  | .halted => .next s
  | .faulted => .next s
  | .running =>
    match fetch s with
    | .ok i => exec i s
    | .error (opcode, c) => .next (s.raise opcode c)

/-- `s` with the bytes of a table word in the cells from the pc on, and RUNNING, so that the next step fetches them
(notes/assumptions/6.md). -/
def State.withFetchWord (s : State) (nbits w : Nat) : State :=
  { writeCode s 0 (tableBytes nbits w) with status := .running }

end Sys2Proof.Machine
end

