-- ==== Sys2Proof/Machine/HostInterface.lean ====
section
/-! DEFINITION. What the host can do to the machine and what it gets back (R200 to R207): reset, load, run, and the
rendering of the output stream. -/

namespace Sys2Proof.Machine

/-- `reset()` (R200): every piece of state to the values of R38, the parameters kept. -/
def State.hostReset (s : State) : State := State.resetWith s.cfg

/-- The refusal of `load` (R204). -/
inductive LoadError where
  | programTooLarge
deriving DecidableEq, Repr

/-- `bytes` written to the cells from `k` on, in ascending order (R202). -/
def Memory.load (m : Memory) (k : Nat) : List Byte → Memory
  | [] => m
  | v :: bytes => Memory.load (m.write k v) (k + 1) bytes

/-- `load(bytes)` (R202, R204): cells 0 to `len - 1`, and nothing else; more than 256 bytes is refused with memory
unchanged (D22). -/
def State.load (s : State) (bytes : List Byte) : Except LoadError State :=
  if bytes.length ≤ 256 then .ok { s with mem := s.mem.load 0 bytes } else .error .programTooLarge

/-- `run()` (R81) under fuel (R214): `step()` while the status is RUNNING. -/
def runFor : Nat → State → Host.Outcome State Fault Refusal
  | 0, s => .next s
  | k + 1, s =>
    match s.status with
    | .halted => .next s
    | .faulted => .next s
    | .running =>
      match step s with
      | .next t => runFor k t
      | .fault r => .fault r
      | .refused r => .refused r

/-- A decimal digit. -/
def decimalDigit (d : Nat) : Char := Char.ofNat (48 + d)

/-- The decimal numeral of a byte, without leading zeros (R90, D30). -/
def decimal (v : Byte) : List Char :=
  let n := v.toNat
  if 100 ≤ n then [decimalDigit (n / 100), decimalDigit (n / 10 % 10), decimalDigit (n % 10)]
  else if 10 ≤ n then [decimalDigit (n / 10), decimalDigit (n % 10)]
  else [decimalDigit n]

/-- How the host shows an event (R36, R90, R91): a PRN as its decimal numeral and a newline, a PRA as one character, ASCII
below 128 (D21) and the host's own from 128 on (U11). -/
def Event.render (e : Event) : List Char :=
  match e.kind with
  | .prn => decimal e.value ++ ['\n']
  | .pra => [if e.value.toNat < 128 then Char.ofNat e.value.toNat else Config.hostCharacter e.value]

/-- The console after the events so far, in order (R36). -/
def State.console (s : State) : List Char := s.out.flatMap Event.render

/-- The spec's number of a cause (R171). -/
def Cause.code : Cause → Nat
  | .illegalInstruction => 1
  | .divisionByZero => 2
  | .outOfRange _ _ => 3

/-- The spec's number of a kind of `OutOfRange` (R171). -/
def RangeKind.code : RangeKind → Nat
  | .fetchAddr => 1
  | .operandAddr => 2
  | .regIndex => 3
  | .stackPointer => 4
  | .returnAddr => 5

/-- The `detail` field of the fault record (R35): empty but for `OutOfRange`. -/
def FaultRecord.detail (f : FaultRecord) : Option (RangeKind × Int) :=
  match f.cause with
  | .illegalInstruction => none
  | .divisionByZero => none
  | .outOfRange kind value => some (kind, value)

end Sys2Proof.Machine
end

