-- ==== Sys2Proof/Safety.lean ====
section
/-! DEFINITION. The terms claims are stated in: the invariant of R39, and what an instruction leaves unchanged. -/

namespace Sys2Proof.Machine

/-- The largest pc (R24, R39): 258 under `fault`, 255 under `wrap`. -/
def maxPc : OobPolicy → Nat
  | .fault => 258
  | .wrap => 255

/-- The invariants of R39 that speak of one state, with the fault record of R172.
That every register and cell holds 0 to 255 is their type. -/
structure State.Inv (s : State) : Prop where
  /-- memory is in its canonical form -/
  mem_wf : s.mem.wf = true
  /-- FL is 0, 1, 2 or 4 (R29) -/
  fl_legal : s.fl = 0 ∨ s.fl = 1 ∨ s.fl = 2 ∨ s.fl = 4
  /-- the interrupt-enable bit is 0 (R30) -/
  ie_off : s.ie = false
  /-- the pc is in its range (R24) -/
  pc_le : s.pc.toNat ≤ maxPc s.cfg.oob
  /-- there is a fault record exactly when the status is FAULTED (R34, R35) -/
  record_iff : s.fault.isSome = true ↔ s.status = .faulted
  /-- the record's address is the pc, which stays at the failing instruction (R172) -/
  record_addr : ∀ f, s.fault = some f → f.addr = s.pc

/-- Every register but those listed, every cell but those listed, the interrupt-enable bit and the parameters are as
before. -/
structure KeepsStorage (regs : List RegIndex) (cells : List Byte) (s t : State) : Prop where
  reg_kept : ∀ r, r ∉ regs → t.reg r = s.reg r
  cell_kept : ∀ a, a ∉ cells → t.memRead a = s.memRead a
  ie_kept : t.ie = s.ie
  cfg_kept : t.cfg = s.cfg

/-- Everything is as before but the pc, the listed registers and the listed cells. -/
structure Keeps (regs : List RegIndex) (cells : List Byte) (s t : State) : Prop
    extends KeepsStorage regs cells s t where
  fl_kept : t.fl = s.fl
  out_kept : t.out = s.out
  status_kept : t.status = s.status
  fault_kept : t.fault = s.fault

/-- The instruction completes in a state with the property `post`. -/
def Completes (i : Instr) (s : State) (post : State → Prop) : Prop :=
  ∃ t, exec i s = .next t ∧ post t

/-- The instruction raises this fault (R172): the next state is `s` with the fault record, under the instruction's own
opcode byte, and status FAULTED, and nothing else changed. -/
def Raises (i : Instr) (s : State) (c : Cause) : Prop :=
  exec i s = .next
    { s with fault := some ⟨c, s.pc, some (s.cfg.opcodeMap.byteOf i.op)⟩, status := .faulted }

/-- The step raises this fault with this opcode byte, or none (R172). -/
def StepRaises (s : State) (opcode : Option Byte) (c : Cause) : Prop :=
  step s = .next { s with fault := some ⟨c, s.pc, opcode⟩, status := .faulted }

/-! ### The tables of R21 and R47 -/

/-- The register a resolved operand byte names (R10, R85): the byte itself up to 7, its low three bits under `wrap`. -/
def namedReg (n : RegOperand) : RegIndex := Fin.ofNat 8 n.toNat

/-- The `writes` column of R21. -/
def regsWritten : Instr → List RegIndex
  | .ldi n _ => [namedReg n]
  | .ld a _ => [namedReg a]
  | .push _ | .call _ | .ret => [spIndex]
  | .pop n => [namedReg n, spIndex]
  | .add a _ | .sub a _ | .mul a _ | .div a _ | .mod a _
  | .and a _ | .or a _ | .xor a _ | .shl a _ | .shr a _ => [namedReg a]
  | .inc a | .dec a | .not a => [namedReg a]
  | .st _ _ | .prn _ | .pra _ | .cmp _ _ => []
  | .jmp _ | .jeq _ | .jne _ | .jgt _ | .jlt _ | .jle _ | .jge _ => []
  | .nop | .hlt | .int _ | .iret => []

/-- The condition on FL of a conditional jump, by the table of R129. -/
def jumpTaken (i : Instr) (fl : Byte) : Bool :=
  match i with
  | .jeq _ => flagE fl
  | .jne _ => !flagE fl
  | .jgt _ => flagG fl
  | .jlt _ => flagL fl
  | .jge _ => flagG fl || flagE fl
  | .jle _ => flagL fl || flagE fl
  | .jmp _ => true
  | _ => false

/-- The `reads` column of R21, for a value of FL. -/
def regsRead (i : Instr) (fl : Byte) : List RegIndex :=
  match i with
  | .ldi _ _ => []
  | .ld _ b => [namedReg b]
  | .st a b | .cmp a b => [namedReg a, namedReg b]
  | .prn n | .pra n | .jmp n => [namedReg n]
  | .push n | .call n => [spIndex, namedReg n]
  | .pop _ | .ret => [spIndex]
  | .add a b | .sub a b | .mul a b | .div a b | .mod a b
  | .and a b | .or a b | .xor a b | .shl a b | .shr a b => [namedReg a, namedReg b]
  | .inc a | .dec a | .not a => [namedReg a]
  | .jeq n | .jne n | .jgt n | .jlt n | .jle n | .jge n => if jumpTaken i fl then [namedReg n] else []
  | .nop | .hlt | .int _ | .iret => []

/-- The cell an instruction writes (R47), by the functions its meaning uses; none if it writes no cell. -/
def cellWritten (i : Instr) (s : State) : Option Byte :=
  match i with
  | .st a _ => some (stAddress s (namedReg a))
  | .push _ | .call _ => (pushPointer s).toOption
  | _ => none

/-- The cell an instruction reads as data (R47); none if it reads no cell. -/
def cellRead (i : Instr) (s : State) : Option Byte :=
  match i with
  | .ld _ b => some (s.reg (namedReg b))
  | .pop _ | .ret => some (s.reg spIndex)
  | _ => none

/-! ### Histories of writes, and what a fetch sees (R33, R52) -/

/-- `s` after the writes `(address, value)` of a list, the first of the list first. -/
def storeAll (s : State) (writes : List (Byte × Byte)) : State :=
  writes.foldl (fun s w => s.memWrite w.1 w.2) s

/-- `s` after the register writes of a list, the first of the list first. -/
def setRegs (s : State) (writes : List (RegIndex × Byte)) : State :=
  writes.foldl (fun s w => s.setReg w.1 w.2) s

/-- The value of the last write to `k` in a list of writes, if there is one. -/
def lastWrite {κ : Type} [DecidableEq κ] (writes : List (κ × Byte)) (k : κ) : Option Byte :=
  (writes.reverse.find? fun w => w.1 = k).map Prod.snd

/-- The writes of `load` (R202): byte `k` to cell `k`. -/
def loadWrites (bytes : List Byte) : List (Byte × Byte) := bytes.zipIdx.map fun p => (BitVec.ofNat 8 p.2, p.1)

/-- Whatever state follows with the memory of `t`, each fetch that falls on cell `a`, of the opcode byte and of any operand
byte, reads `v`; under `wrap` a fetch address is taken modulo 256 (R10, R82, R84). -/
def FetchesSee (t : State) (a v : Byte) : Prop :=
  ∀ u : State, u.mem = t.mem →
    (u.pc.toNat = a.toNat ∨ u.cfg.oob = .wrap ∧ u.pc.toNat % 256 = a.toNat → fetchOpcode u = .ok v) ∧
    ∀ k, u.pc.toNat + k = a.toNat ∨ u.cfg.oob = .wrap ∧ (u.pc.toNat + k) % 256 = a.toNat →
      fetchOperand u k = .ok v

end Sys2Proof.Machine
end

