-- ==== Sys2Proof/Certificates/Slice0/Obligations.lean ====
section
/-! DEFINITION. The statements about the model, for the provers. -/

open Sys2Proof Sys2Proof.Machine

/-! ### Reset and parameters -/

/-- Reset puts every piece of state to its value of R38 (R200), whatever the state was; the parameters stay; with the
default parameters register 7 is 244 and the policy is `fault`.
The default 244 and the values of status, fault record and output are the spec's decisions D7, D21 and D25. -/
def Obligations.ResetSetsEveryPieceOfState : Prop :=
  (∀ s : State,
    (∀ r : RegIndex, s.hostReset.reg r = if r = 7 then s.cfg.spInit else 0) ∧
    (∀ a : Byte, s.hostReset.memRead a = 0) ∧
    s.hostReset.pc = 0 ∧ s.hostReset.fl = 0 ∧ s.hostReset.ie = false ∧ s.hostReset.status = .running ∧
    s.hostReset.fault = none ∧ s.hostReset.out = [] ∧ s.hostReset.cfg = s.cfg) ∧
  State.reset = State.reset.hostReset ∧
  State.reset.cfg.oob = .fault ∧ State.reset.cfg.spInit = 244 ∧ State.reset.cfg.opcodeMap = OpcodeMap.standard

/-- The invariant holds after reset, with any parameters. -/
def Obligations.InvariantHoldsAfterReset : Prop := ∀ s : State, s.hostReset.Inv

/-- Every step keeps the invariant of R39: canonical memory, FL in 0, 1, 2, 4, `ie = 0`, the pc in its range, and a
fault record, addressed at the pc, exactly when FAULTED. -/
def Obligations.EveryStepKeepsTheInvariant : Prop :=
  ∀ s t : State, s.Inv → step s = .next t → t.Inv

/-- No step changes a parameter or the interrupt-enable bit, and no step depends on the interrupt-enable bit (R30, R40).
That `ie` is kept as inert state is the spec's decision D24; carrying the parameters in State is notes/assumptions/2.md. -/
def Obligations.ParametersAndInterruptEnableAreInert : Prop :=
  ∀ s t : State, step s = .next t →
    t.cfg = s.cfg ∧ t.ie = s.ie ∧ ∀ b : Bool, step { s with ie := b } = .next { t with ie := b }

/-! ### Encoding -/

/-- The default `OPCODE_MAP` meets every constraint of R65, and exactly 222 of the 256 byte values are no opcode (R68).
The opcode values are the spec's decision D1. -/
def Obligations.StandardMapMeetsItsConstraints : Prop :=
  OpcodeMap.standard.wf = true ∧
  ((List.range 256).filter fun b => (OpcodeMap.standard.lookup (BitVec.ofNat 8 b)).isNone).length = 222

/-- Words written out from the encodings of R64 decode to their instructions.
The opcode values are the spec's decision D1. -/
def Obligations.WrittenWordsDecode : Prop :=
  decodeTableWord 8 0b00000001 = some .hlt ∧
  decodeTableWord 24 0b00001000_00000101_10000010 = some (.ldi 5 8) ∧
  decodeTableWord 24 0b00000010_00000011_10000011 = some (.ld 3 2) ∧
  decodeTableWord 16 0b00000110_01000101 = some (.push 6) ∧
  decodeTableWord 16 0b00000111_01011010 = some (.jge 7) ∧
  decodeTableWord 24 0b00000001_00000100_10100001 = some (.sub 4 1) ∧
  decodeTableWord 16 0b00000011_01101001 = some (.not 3) ∧
  decodeTableWord 8 0b11111111 = none

/-- Decoding the encoding of any instruction gives that instruction and the bytes after it, for every `OPCODE_MAP` that
meets R65 and every operand byte. -/
def Obligations.DecodeOfEncodeIsTheInstruction : Prop :=
  ∀ (m : OpcodeMap) (i : Instr) (rest : List Byte), m.wf = true → decode m (encode m i ++ rest) = .ok (i, rest)

/-- Whatever the decoder reads is the encoding of what it answers: no two byte sequences decode to one instruction. -/
def Obligations.EncodeOfDecodeIsTheBytes : Prop :=
  ∀ (m : OpcodeMap) (bytes rest : List Byte) (i : Instr),
    decode m bytes = .ok (i, rest) → bytes = encode m i ++ rest

/-- The whole opcode byte is matched (R66): a byte is recognised as a mnemonic if and only if it is that mnemonic's row,
and as none if and only if it is no row; the fields of a recognised byte agree with its row.
The places of the ALU mark and the sets-pc mark in the byte are the spec's decision D2. -/
def Obligations.WholeOpcodeByteIsMatched : Prop :=
  ∀ (m : OpcodeMap) (b : Byte), m.wf = true →
    (∀ op : Op, m.lookup b = some op ↔ m.byteOf op = b) ∧
    (m.lookup b = none ↔ ∀ op : Op, m.byteOf op ≠ b) ∧
    ∀ op : Op, m.lookup b = some op →
      opcodeN b = op.operandCount ∧ opcodeA b = op.isAlu ∧ opcodeC b = op.setsPc

/-- The length of an instruction is `1 + N` with `N` bits 7:6 of its opcode byte, `N` is 0, 1 or 2, and an instruction
that runs and does not set pc itself advances pc by that same length, as does a conditional jump that does not go to its
register (R209).
That HLT advances is the spec's decision D9, the policy D5 and the width of the pc D6. -/
def Obligations.AdvanceIsOnePlusDeclaredOperandCount : Prop :=
  (∀ (m : OpcodeMap) (i : Instr), m.wf = true →
    (encode m i).length = 1 + opcodeN (m.byteOf i.op) ∧ opcodeN (m.byteOf i.op) ≤ 2) ∧
  ∀ (i : Instr) (s t : State), s.cfg.opcodeMap.wf = true → s.status ≠ .faulted →
    exec i s = .next t → t.status ≠ .faulted →
    (i.op.setsPc = false →
      t.pc = nextPc s.cfg.oob (s.pc.toNat + (1 + opcodeN (s.cfg.opcodeMap.byteOf i.op)))) ∧
    (i.op.isConditionalJump = true →
      t.pc = nextPc s.cfg.oob (s.pc.toNat + (1 + opcodeN (s.cfg.opcodeMap.byteOf i.op))) ∨
      ∃ n ∈ i.regOperands, t.pc.toNat = (s.reg (namedReg n)).toNat)

/-- The auto-advance (R86): `NextPc` is exact under `fault` and modulo 256 under `wrap`; an instruction that does not set
pc leaves it at `NextPc(pc + 1 + N)`; one that sets pc leaves what its own rule says, a conditional jump that is not taken
`NextPc(pc + 2)`. -/
def Obligations.AutoAdvanceFollowsTheDispatcher : Prop :=
  (∀ v : Nat, v < 512 → (nextPc .fault v).toNat = v) ∧
  (∀ v : Nat, (nextPc .wrap v).toNat = v % 256) ∧
  ∀ (i : Instr) (s t : State), s.status ≠ .faulted → exec i s = .next t → t.status ≠ .faulted →
    (i.op.setsPc = false → t.pc = nextPc s.cfg.oob (s.pc.toNat + 1 + i.op.operandCount)) ∧
    (i.op.isConditionalJump = true → jumpTaken i s.fl = false → t.pc = nextPc s.cfg.oob (s.pc.toNat + 2)) ∧
    (∀ n, i = .jmp n → t.pc.toNat = (s.reg (namedReg n)).toNat) ∧
    (∀ n, i = .call n → t.pc.toNat = (t.reg (namedReg n)).toNat) ∧
    (i = .ret → t.pc.toNat = (s.memRead (s.reg 7)).toNat) ∧
    (i.op.isConditionalJump = true → jumpTaken i s.fl = true →
      ∃ n, n ∈ i.regOperands ∧ t.pc.toNat = (s.reg (namedReg n)).toNat)

/-- Instructions are 1 to 3 bytes long, and bits 7:6 of the opcode byte alone give the length; no state changes what bytes
decode to; a byte is an opcode or an operand only by where pc lands, so that after a jump to any cell the byte there is
the opcode, and the step is what that byte gives (R70, R66, R68).
What raising the fault records and leaves is R172, the spec's decisions D11 and D12, the status D25; that it is a next state
is notes/assumptions/8.md. -/
def Obligations.BytesDecodeAlikeInEveryState : Prop :=
  (∀ (m : OpcodeMap) (ir : Byte) (bytes rest : List Byte) (i : Instr), m.wf = true →
    decode m (ir :: bytes) = .ok (i, rest) →
    (ir :: bytes).length = 1 + opcodeN ir + rest.length ∧ opcodeN ir ≤ 2 ∧
    ∀ (bytes' rest' : List Byte) (j : Instr), decode m (ir :: bytes') = .ok (j, rest') → j.op = i.op) ∧
  (∀ (s s' : State) (i : Instr) (rest : List Byte), s.status = .running → s'.status = .running →
    s'.cfg.opcodeMap = s.cfg.opcodeMap → codeBytes s' = codeBytes s →
    decode s.cfg.opcodeMap (codeBytes s) = .ok (i, rest) → step s = exec i s ∧ step s' = exec i s') ∧
  ∀ (n : RegOperand) (s t : State) (r : RegIndex), regIdx s.cfg.oob n = .ok r → s.status = .running →
    exec (.jmp n) s = .next t →
    fetchOpcode t = .ok (s.memRead (s.reg r)) ∧
    (s.cfg.opcodeMap.lookup (s.memRead (s.reg r)) = none →
      StepRaises t (some (s.memRead (s.reg r))) .illegalInstruction) ∧
    ∀ i, fetch t = .ok i → s.cfg.opcodeMap.byteOf i.op = s.memRead (s.reg r) ∧ step t = exec i t

/-! ### The step -/

/-- When the bytes at the pc decode to an instruction, the step of a running machine is that instruction performed, and
nothing is added around it (R80); the bytes at the pc are the cells `pc`, `pc + 1`, `pc + 2`, under `wrap` modulo 256. -/
def Obligations.StepPerformsTheDecodedInstruction : Prop :=
  (∀ (s : State) (i : Instr) (rest : List Byte), s.status = .running →
    decode s.cfg.opcodeMap (codeBytes s) = .ok (i, rest) → step s = exec i s) ∧
  (∀ s : State, s.pc.toNat ≤ 253 ∨ s.cfg.oob = .wrap →
    codeBytes s = [s.memRead (BitVec.ofNat 8 s.pc.toNat), s.memRead (BitVec.ofNat 8 (s.pc.toNat + 1)),
      s.memRead (BitVec.ofNat 8 (s.pc.toNat + 2))]) ∧
  (∀ s : State, s.cfg.oob = .fault → s.pc = 254 → codeBytes s = [s.memRead 254, s.memRead 255]) ∧
  (∀ s : State, s.cfg.oob = .fault → s.pc = 255 → codeBytes s = [s.memRead 255])

/-- What the fetch raises, in the order of R174: the fetch address with no opcode; then an opcode that is no row, or is
INT or IRET, whatever follows it; then the address of the first operand byte, then of the second.
The order is the spec's decision D13, the record of a fetch out of range D29, the guard of the operand fetch D8. -/
def Obligations.FetchRaisesTheFirstFault : Prop :=
  ∀ s : State, s.status = .running →
    (s.cfg.oob = .fault → 256 ≤ s.pc.toNat → StepRaises s none (.outOfRange .fetchAddr s.pc.toNat)) ∧
    (∀ ir : Byte, s.pc.toNat ≤ 255 ∨ s.cfg.oob = .wrap → ir = s.memRead (BitVec.ofNat 8 s.pc.toNat) →
      (s.cfg.opcodeMap.lookup ir = none → StepRaises s (some ir) .illegalInstruction) ∧
      (∀ op : Op, s.cfg.opcodeMap.lookup ir = some op →
        (op = .int ∨ op = .iret → StepRaises s (some ir) .illegalInstruction) ∧
        (op ≠ .int → op ≠ .iret → s.cfg.oob = .fault →
          (s.pc = 255 → 1 ≤ op.operandCount → StepRaises s (some ir) (.outOfRange .operandAddr 256)) ∧
          (s.pc = 254 → op.operandCount = 2 → StepRaises s (some ir) (.outOfRange .operandAddr 256)))))

/-- A register operand byte above 7 raises `OutOfRange(RegIndex)` with that byte under `fault`, the first such operand,
whether or not the handler would use it (R85); under `wrap` its low three bits name the register.
That the check exists is the spec's decision D5, its place in the order D13. -/
def Obligations.RegisterOperandAboveSevenRaises : Prop :=
  (∀ (i : Instr) (s : State) (n : RegOperand), s.cfg.oob = .fault → i.op ≠ .int →
    i.regOperands.find? (fun m => !m.wellFormed) = some n →
    Raises i s (.outOfRange .regIndex n.toNat)) ∧
  (∀ n : RegOperand, regIdx .wrap n = .ok (namedReg n) ∧ (namedReg n).val = n.toNat % 8) ∧
  ∀ n : RegOperand, n.toNat ≤ 7 → regIdx .fault n = .ok (namedReg n) ∧ (namedReg n).val = n.toNat

/-- Under `OOB_POLICY = wrap` the cause `OutOfRange` does not exist (R171): a step that faults raises
`IllegalInstruction` or `DivisionByZero`. The policy is the spec's decision D5. -/
def Obligations.WrapPolicyNeverRaisesOutOfRange : Prop :=
  ∀ s t : State, s.cfg.oob = .wrap → s.status = .running → step s = .next t → t.status = .faulted →
    ∃ f, t.fault = some f ∧ (f.cause = .illegalInstruction ∨ f.cause = .divisionByZero)

/-- A fault is precise (R172, R173): a running machine's step that ends FAULTED changes nothing but the status and the
record; the record's address is the pc, and its opcode is the byte at the pc, or none for a fetch out of range.
Preciseness of every fault is the spec's decision D12, the record's fields D11 and D29. -/
def Obligations.FaultsArePrecise : Prop :=
  ∀ s t : State, s.status = .running → step s = .next t → t.status = .faulted →
    t.regs = s.regs ∧ t.mem = s.mem ∧ t.pc = s.pc ∧ t.fl = s.fl ∧ t.ie = s.ie ∧ t.out = s.out ∧ t.cfg = s.cfg ∧
    ∃ f, t.fault = some f ∧ f.addr = s.pc ∧
      ((∃ v, f.cause = .outOfRange .fetchAddr v) → f.opcode = none ∧ 256 ≤ s.pc.toNat) ∧
      ((∀ v, f.cause ≠ .outOfRange .fetchAddr v) → f.opcode = some (s.memRead (BitVec.ofNat 8 s.pc.toNat)))

/-- A step leaves a running machine RUNNING, or HALTED exactly when the instruction is HLT, or FAULTED by a raised cause
with nothing retried: from a stopped state every further run stays where it is (R170).
The status, and that a stopped machine's step changes nothing, are the spec's decision D25. -/
def Obligations.RunEndsOnlyByHltOrFault : Prop :=
  (∀ s t : State, s.status = .running → step s = .next t →
    (t.status = .halted ↔ fetch s = .ok .hlt) ∧
    (t.status = .faulted → ∃ opcode c, t = s.raise opcode c)) ∧
  ∀ (k : Nat) (s : State), s.status = .halted ∨ s.status = .faulted → runFor k s = .next s

/-- `run()` is `step()` repeated while the status is RUNNING (R81): under any fuel it gives what that many steps of the
host's machine give. That a stopped machine's step changes nothing is the spec's decision D25. -/
def Obligations.RunIsRepeatedStep : Prop :=
  ∀ (k : Nat) (s : State), runFor k s = Host.Core.run Sys2Proof.core k s

/-! ### Whole-machine rules -/

/-- FL is written by CMP alone, all three flags at once, and read by the conditional jumps alone (R28).
The direction of the comparison is the spec's decision D15, the bit places D4. -/
def Obligations.FlagsAreCmpsAndTheJumps : Prop :=
  (∀ (i : Instr) (s t : State), i.op ≠ .cmp → exec i s = .next t → t.fl = s.fl) ∧
  (∀ (a b : RegOperand) (s t : State) (ra rb : RegIndex),
    regIdx s.cfg.oob a = .ok ra → regIdx s.cfg.oob b = .ok rb → exec (.cmp a b) s = .next t →
    t.fl = flByte (decide ((s.reg ra).toNat < (s.reg rb).toNat)) (decide ((s.reg rb).toNat < (s.reg ra).toNat))
      (decide (s.reg ra = s.reg rb)) ∧
    ∀ v, exec (.cmp a b) (s.setFl v) = .next t) ∧
  (∀ (i : Instr) (s t : State) (v : Byte), i.op.isConditionalJump = false → i.op ≠ .cmp → exec i s = .next t →
    exec i (s.setFl v) = .next (t.setFl v))

/-- The registers an instruction reads and writes are those of the table of R21: every register is named by an operand
byte, and may be named in every operand position of every instruction, which then never raises `OutOfRange(RegIndex)`; a
register an instruction does not write keeps its value, and changing a register it does not read changes nothing but that
register, which keeps the changed value unless the instruction writes it.
Which byte names a register is the spec's decision D3, when a conditional jump is taken D14. -/
def Obligations.RegistersReadAndWrittenAreTheTables : Prop :=
  (∀ (i : Instr) (s t : State), i.wellFormed = true → s.status ≠ .faulted → exec i s = .next t →
    ∀ f v, t.status = .faulted → t.fault = some f → f.cause ≠ .outOfRange .regIndex v) ∧
  (∀ (s : State) (r : RegIndex) (h : RegIndex → Checked State) (h' : RegIndex → RegIndex → Checked State),
    withReg s (BitVec.ofNat 8 r.val) h = h r ∧
    ∀ q : RegIndex, withRegs s (BitVec.ofNat 8 r.val) (BitVec.ofNat 8 q.val) h' = h' r q) ∧
  (∀ (i : Instr) (s t : State) (r : RegIndex), exec i s = .next t → r ∉ regsWritten i → t.reg r = s.reg r) ∧
  (∀ (a b : RegOperand) (s t : State) (r : RegIndex), s.reg (namedReg b) = 0 →
    exec (.div a b) s = .next t ∨ exec (.mod a b) s = .next t → t.reg r = s.reg r) ∧
  ∀ (i : Instr) (s t : State) (r : RegIndex) (v : Byte), r ∉ regsRead i s.fl → exec i s = .next t →
    ∃ u, exec i (s.setReg r v) = .next u ∧ (∀ w, u.setReg r w = t.setReg r w) ∧
      (u.reg r = v ∨ r ∈ regsWritten i ∧ u.reg r = t.reg r)

/-- The cells an instruction reaches are those of R47: a cell other than the one `cellWritten` computes keeps its byte,
and an instruction depends on no cell but the one `cellRead` computes. -/
def Obligations.MemoryReachedIsTheTables : Prop :=
  (∀ (i : Instr) (s t : State) (a : Byte), exec i s = .next t → cellWritten i s ≠ some a →
    t.memRead a = s.memRead a) ∧
  ∀ (i : Instr) (s t : State) (m : Memory), exec i s = .next t →
    (∀ a, cellRead i s = some a → m.read a.toNat = s.memRead a) →
    ∃ u, exec i { s with mem := m } = .next u ∧ { u with mem := [] } = { t with mem := [] }

/-- The output stream only grows (R36, R39): PRN and PRA append one event of their kind with the register's byte, or
nothing when they fault, and every other instruction appends none.
The event form is the spec's decision D21. -/
def Obligations.OutputOnlyGrows : Prop :=
  (∀ (i : Instr) (s t : State), exec i s = .next t → i.op ≠ .prn → i.op ≠ .pra → t.out = s.out) ∧
  (∀ (n : RegOperand) (s t : State), s.status ≠ .faulted → exec (.prn n) s = .next t →
    t.out = if t.status = .faulted then s.out else s.out ++ [⟨.prn, s.reg (namedReg n)⟩]) ∧
  (∀ (n : RegOperand) (s t : State), s.status ≠ .faulted → exec (.pra n) s = .next t →
    t.out = if t.status = .faulted then s.out else s.out ++ [⟨.pra, s.reg (namedReg n)⟩]) ∧
  (∀ s t : State, step s = .next t → t.out = s.out ∨ ∃ e, t.out = s.out ++ [e]) ∧
  ∀ (k : Nat) (s t : State), runFor k s = .next t → ∃ events, t.out = s.out ++ events

/-! ### Memory -/

/-- Memory is 256 ordinary cells (R33): a cell reads back the last byte written to it, a write leaves every other cell
alone, a read is a function of the state and changes nothing, and every cell is 0 after reset. -/
def Obligations.MemoryIsOrdinaryStorage : Prop :=
  (∀ (s : State) (a v : Byte), s.mem.wf = true → (s.memWrite a v).memRead a = v) ∧
  (∀ (s : State) (a b v : Byte), b ≠ a → (s.memWrite a v).memRead b = s.memRead b) ∧
  (∀ (s : State) (a v : Byte), s.mem.wf = true → (s.memWrite a v).mem.wf = true) ∧
  ∀ a : Byte, State.reset.memRead a = 0

/-- Two canonical memories that read alike in every cell are the same data. -/
def Obligations.EqualMemoriesAreEqualData : Prop :=
  ∀ m m' : Memory, m.wf = true → m'.wf = true → (∀ a : Byte, m.read a.toNat = m'.read a.toNat) → m = m'

/-- `load` (R202, R204): up to 256 bytes go to the cells from 0 on, in order, and nothing else changes; more are refused.
That a refused load leaves memory unchanged is the spec's decision D22. -/
def Obligations.LoadCopiesTheImage : Prop :=
  ∀ (s : State) (bytes : List Byte), s.mem.wf = true →
    (bytes.length ≤ 256 → ∃ t, s.load bytes = .ok t ∧ t.mem.wf = true ∧ { t with mem := s.mem } = s ∧
      ∀ a : Byte, t.memRead a = (bytes[a.toNat]?).getD (s.memRead a)) ∧
    (256 < bytes.length → s.load bytes = .error .programTooLarge)

/-- A store of ST, PUSH or CALL is seen by every later fetch of its cell, the opcode fetch and each operand fetch alike,
also one that wraps (R52).
This is the spec's decision D23; that an address wraps is the policy D5, the stack pointer and the return address D18 and
D19, register 7 as operand D20. -/
def Obligations.StoreIsSeenByTheNextFetch : Prop :=
  (∀ (a b : RegOperand) (s : State) (ra rb : RegIndex), s.mem.wf = true →
    regIdx s.cfg.oob a = .ok ra → regIdx s.cfg.oob b = .ok rb →
    Completes (.st a b) s fun t => FetchesSee t (stAddress s ra) (s.reg rb)) ∧
  (∀ (n : RegOperand) (s : State) (r : RegIndex) (sp : Byte), s.mem.wf = true → regIdx s.cfg.oob n = .ok r →
    pushPointer s = .ok sp →
    Completes (.push n) s fun t => FetchesSee t sp (if r = 7 then sp else s.reg r)) ∧
  ∀ (n : RegOperand) (s : State) (r : RegIndex) (sp ret : Byte), s.mem.wf = true → regIdx s.cfg.oob n = .ok r →
    pushPointer s = .ok sp → returnAddress s = .ok ret →
    Completes (.call n) s fun t => FetchesSee t sp ret

/-- Memory is 256 ordinary cells in one address space (R33): after any writes a cell reads the last value written to it,
else what it held, and after reset 0; `load` writes as a store does; an instruction that does not fault does one write, to
the cell `cellWritten` computes, or none where that is none, and for PUSH and CALL the cell is the one below the stack
pointer; and the opcode fetch, the operand fetch, LD, POP and RET read those same cells.
POP R7, whose result is the spec's decision D20, is said in PopLoadsThenIncrements. -/
def Obligations.ReadsReturnTheLastValueWritten : Prop :=
  (∀ (s : State) (writes : List (Byte × Byte)) (a : Byte), s.mem.wf = true →
    (storeAll s writes).memRead a = (lastWrite writes a).getD (s.memRead a)) ∧
  (∀ (s : State) (a : Byte), s.hostReset.mem.wf = true ∧ s.hostReset.memRead a = 0) ∧
  (∀ (s t : State) (bytes : List Byte), s.load bytes = .ok t → t = storeAll s (loadWrites bytes)) ∧
  (∀ (i : Instr) (s t : State), exec i s = .next t →
    t.mem = s.mem ∧ (t.status = .faulted ∨ cellWritten i s = none) ∨
      ∃ a v, cellWritten i s = some a ∧ t.mem = (s.memWrite a v).mem) ∧
  (∀ (s : State) (n : RegOperand), s.reg 7 ≠ 0 →
    cellWritten (.push n) s = some (s.reg 7 - 1) ∧ cellWritten (.call n) s = some (s.reg 7 - 1)) ∧
  (∀ (s : State) (a : Byte), s.pc.toNat = a.toNat → fetchOpcode s = .ok (s.memRead a)) ∧
  (∀ (s : State) (k : Nat) (a : Byte), s.pc.toNat + k = a.toNat → fetchOperand s k = .ok (s.memRead a)) ∧
  (∀ (a b : RegOperand) (s t : State), exec (.ld a b) s = .next t → t.status ≠ .faulted →
    t.reg (namedReg a) = s.memRead (s.reg (namedReg b))) ∧
  (∀ (n : RegOperand) (s t : State), exec (.pop n) s = .next t → t.status ≠ .faulted → namedReg n ≠ 7 →
    t.reg (namedReg n) = s.memRead (s.reg 7)) ∧
  ∀ s t : State, exec .ret s = .next t → t.status ≠ .faulted → t.pc.toNat = (s.memRead (s.reg 7)).toNat

/-! ### Registers -/

/-- The eight registers are one file of ordinary registers, register 0 among them (R20): after any writes a register reads
the last value written to it, else what it held; a register that LDI writes holds the whole byte, the other seven keep
theirs, and JMP reads it back; register 7 is the stack pointer. -/
def Obligations.RegistersAreOrdinary : Prop :=
  (∀ (s : State) (writes : List (RegIndex × Byte)) (r : RegIndex),
    (setRegs s writes).reg r = (lastWrite writes r).getD (s.reg r)) ∧
  spIndex = 7 ∧
  ∀ (n : RegOperand) (v : Byte) (s : State) (r : RegIndex), regIdx s.cfg.oob n = .ok r →
    Completes (.ldi n v) s fun t => t.reg r = v ∧ (∀ q, q ≠ r → t.reg q = s.reg q) ∧
      Completes (.jmp n) t fun u => u.pc.toNat = v.toNat ∧ ∀ q, u.reg q = t.reg q

/-! ### System instructions -/

/-- NOP only advances the pc (R88); HLT sets HALTED and advances the pc (R89).
That HLT advances is the spec's decision D9. -/
def Obligations.NopAndHltComplete : Prop :=
  ∀ s : State,
    Completes .nop s (fun t => Keeps [] [] s t ∧ t.pc = nextPc s.cfg.oob (s.pc.toNat + 1)) ∧
    Completes .hlt s (fun t => KeepsStorage [] [] s t ∧ t.fl = s.fl ∧ t.out = s.out ∧ t.fault = s.fault ∧
      t.status = .halted ∧ t.pc = nextPc s.cfg.oob (s.pc.toNat + 1))

/-- PRN and PRA append the register's byte to the output stream, under their own kind (R90, R91).
The event form is the spec's decision D21. -/
def Obligations.PrintsAppendTheRegister : Prop :=
  ∀ (n : RegOperand) (s : State) (r : RegIndex), regIdx s.cfg.oob n = .ok r →
    Completes (.prn n) s (fun t => KeepsStorage [] [] s t ∧ t.fl = s.fl ∧ t.status = s.status ∧ t.fault = s.fault ∧
      t.out = s.out ++ [⟨.prn, s.reg r⟩] ∧ t.pc = nextPc s.cfg.oob (s.pc.toNat + 2)) ∧
    Completes (.pra n) s (fun t => KeepsStorage [] [] s t ∧ t.fl = s.fl ∧ t.status = s.status ∧ t.fault = s.fault ∧
      t.out = s.out ++ [⟨.pra, s.reg r⟩] ∧ t.pc = nextPc s.cfg.oob (s.pc.toNat + 2))

/-- INT and IRET raise `IllegalInstruction` (R92, R93), INT whatever its operand byte; in a step they do so as soon as
the opcode is read, wherever it stands. This is the spec's decision D10. -/
def Obligations.IntAndIretRaiseIllegalInstruction : Prop :=
  (∀ (n : RegOperand) (s : State), Raises (.int n) s .illegalInstruction ∧ Raises .iret s .illegalInstruction) ∧
  ∀ s : State, s.status = .running → s.cfg.opcodeMap.wf = true → s.pc.toNat ≤ 255 →
    (s.memRead (BitVec.ofNat 8 s.pc.toNat) = s.cfg.opcodeMap.int →
      StepRaises s (some s.cfg.opcodeMap.int) .illegalInstruction) ∧
    (s.memRead (BitVec.ofNat 8 s.pc.toNat) = s.cfg.opcodeMap.iret →
      StepRaises s (some s.cfg.opcodeMap.iret) .illegalInstruction)

/-- How the host shows a PRN (R90): the decimal numeral of the byte, one to three digits with no leading zero, then a
newline; and a PRA below 128 (R91): one character with that code. The numeral's form is D30, ASCII is D21. -/
def Obligations.PrintedFormsAreNumeralAndCharacter : Prop :=
  ∀ v : Byte,
    (∃ digits : List Char, Event.render ⟨.prn, v⟩ = digits ++ ['\n'] ∧ digits ≠ [] ∧
      (∀ c ∈ digits, 48 ≤ c.toNat ∧ c.toNat ≤ 57) ∧
      digits.foldl (fun n c => 10 * n + (c.toNat - 48)) 0 = v.toNat ∧
      (digits.head? = some '0' → digits = ['0'])) ∧
    (v.toNat < 128 → ∃ c, Event.render ⟨.pra, v⟩ = [c] ∧ c.toNat = v.toNat)

/-! ### Data transfer -/

/-- LDI (R100, R63): the immediate byte, any value, goes to the register as it stands. -/
def Obligations.LdiLoadsTheImmediate : Prop :=
  ∀ (n : RegOperand) (imm : Byte) (s : State) (r : RegIndex), regIdx s.cfg.oob n = .ok r →
    Completes (.ldi n imm) s fun t =>
      Keeps [r] [] s t ∧ t.reg r = imm ∧ t.pc = nextPc s.cfg.oob (s.pc.toNat + 3)

/-- LD (R101): the byte in the cell the second register addresses goes to the first, also when they are one register. -/
def Obligations.LdLoadsTheAddressedCell : Prop :=
  ∀ (a b : RegOperand) (s : State) (ra rb : RegIndex),
    regIdx s.cfg.oob a = .ok ra → regIdx s.cfg.oob b = .ok rb →
    Completes (.ld a b) s fun t =>
      Keeps [ra] [] s t ∧ t.reg ra = s.memRead (s.reg rb) ∧ t.pc = nextPc s.cfg.oob (s.pc.toNat + 3)

/-- ST (R102): the second register's byte goes to the cell the first addresses; no register and no other cell
changes. -/
def Obligations.StStoresToTheAddressedCell : Prop :=
  ∀ (a b : RegOperand) (s : State) (ra rb : RegIndex), s.mem.wf = true →
    regIdx s.cfg.oob a = .ok ra → regIdx s.cfg.oob b = .ok rb →
    stAddress s ra = s.reg ra ∧
    Completes (.st a b) s fun t =>
      Keeps [] [stAddress s ra] s t ∧ t.memRead (stAddress s ra) = s.reg rb ∧
      t.pc = nextPc s.cfg.oob (s.pc.toNat + 3)

/-! ### Stack and subroutine -/

/-- PUSH (R110, R111): the stack pointer goes down one and the register's byte goes to the cell it then addresses;
`PUSH R7` pushes the decremented stack pointer; under `wrap` 0 becomes 255.
The order for R7 is the spec's decision D20, the policy D18. -/
def Obligations.PushDecrementsThenStores : Prop :=
  ∀ (n : RegOperand) (s : State) (r : RegIndex), s.mem.wf = true → regIdx s.cfg.oob n = .ok r →
    s.reg 7 ≠ 0 ∨ s.cfg.oob = .wrap →
    pushPointer s = .ok (s.reg 7 - 1) ∧
    Completes (.push n) s fun t =>
      Keeps [7] [s.reg 7 - 1] s t ∧ t.reg 7 = s.reg 7 - 1 ∧
      t.memRead (s.reg 7 - 1) = (if r = 7 then s.reg 7 - 1 else s.reg r) ∧
      t.pc = nextPc s.cfg.oob (s.pc.toNat + 2)

/-- POP (R112): the register takes the byte the stack pointer addresses and the stack pointer goes up one; `POP R7` takes
the byte and then goes up one from it; memory keeps its bytes; under `wrap` 256 becomes 0.
The order for R7 is the spec's decision D20, the policy D18. -/
def Obligations.PopLoadsThenIncrements : Prop :=
  ∀ (n : RegOperand) (s : State) (r : RegIndex), regIdx s.cfg.oob n = .ok r →
    (r ≠ 7 → s.reg 7 ≠ 255 ∨ s.cfg.oob = .wrap →
      Completes (.pop n) s fun t =>
        Keeps [r, 7] [] s t ∧ t.reg r = s.memRead (s.reg 7) ∧ t.reg 7 = s.reg 7 + 1 ∧
        t.pc = nextPc s.cfg.oob (s.pc.toNat + 2)) ∧
    (r = 7 → s.memRead (s.reg 7) ≠ 255 ∨ s.cfg.oob = .wrap →
      Completes (.pop n) s fun t =>
        Keeps [7] [] s t ∧ t.reg 7 = s.memRead (s.reg 7) + 1 ∧ t.pc = nextPc s.cfg.oob (s.pc.toNat + 2))

/-- CALL (R113): the address after the two-byte CALL is pushed and the pc becomes the register, read after the push, so
that `CALL R7` jumps to the decremented stack pointer; under `wrap` both wrap modulo 256.
The order for R7 is the spec's decision D20, the policy D18 and D19. -/
def Obligations.CallPushesTheReturnAddressAndJumps : Prop :=
  ∀ (n : RegOperand) (s : State) (r : RegIndex), s.mem.wf = true → regIdx s.cfg.oob n = .ok r →
    s.pc.toNat + 2 ≤ 255 ∧ s.reg 7 ≠ 0 ∨ s.cfg.oob = .wrap →
    pushPointer s = .ok (s.reg 7 - 1) ∧
    Completes (.call n) s fun t =>
      Keeps [7] [s.reg 7 - 1] s t ∧ t.reg 7 = s.reg 7 - 1 ∧
      (t.memRead (s.reg 7 - 1)).toNat = (s.pc.toNat + 2) % 256 ∧
      t.pc.toNat = (if r = 7 then s.reg 7 - 1 else s.reg r).toNat

/-- RET (R114): the pc becomes the byte the stack pointer addresses and the stack pointer goes up one; under `wrap` 256
becomes 0. The policy is the spec's decision D18. -/
def Obligations.RetPopsThePc : Prop :=
  ∀ s : State, s.reg 7 ≠ 255 ∨ s.cfg.oob = .wrap →
    Completes .ret s fun t =>
      Keeps [7] [] s t ∧ t.reg 7 = s.reg 7 + 1 ∧ t.pc.toNat = (s.memRead (s.reg 7)).toNat

/-- The stack faults under `fault` (R111 to R114, R171): PUSH and CALL at stack pointer 0, POP and RET where the
incremented value is 256, CALL in cell 254 by its return address, which is checked before its stack pointer.
They are the spec's decisions D13, D18 and D19. -/
def Obligations.StackPointerAndReturnAddressFault : Prop :=
  ∀ (n : RegOperand) (s : State) (r : RegIndex), s.cfg.oob = .fault → regIdx s.cfg.oob n = .ok r →
    (s.reg 7 = 0 → Raises (.push n) s (.outOfRange .stackPointer (-1))) ∧
    (r ≠ 7 → s.reg 7 = 255 → Raises (.pop n) s (.outOfRange .stackPointer 256)) ∧
    (r = 7 → s.memRead (s.reg 7) = 255 → Raises (.pop n) s (.outOfRange .stackPointer 256)) ∧
    (s.pc = 254 → Raises (.call n) s (.outOfRange .returnAddr 256)) ∧
    (s.pc.toNat ≤ 253 → s.reg 7 = 0 → Raises (.call n) s (.outOfRange .stackPointer (-1))) ∧
    (s.reg 7 = 255 → Raises .ret s (.outOfRange .stackPointer 256))

/-- PUSH and then POP of the same register, 7 among them, restore every register (R115, first law); the only lasting
change in memory is the pushed cell. -/
def Obligations.PushThenPopIsIdentity : Prop :=
  ∀ (n : RegOperand) (s t : State), s.mem.wf = true → s.status = .running →
    exec (.push n) s = .next t → t.status = .running →
    Completes (.pop n) t fun u => u.status = .running ∧ ∀ r, u.reg r = s.reg r ∧
      ∀ a, a ≠ s.reg 7 - 1 → u.memRead a = s.memRead a

/-- CALL and the callee's RET resume after the CALL with the stack pointer as before it, whatever the callee did besides,
if it leaves the stack pointer and the cell that holds the return address as it found them (R115, second law). -/
def Obligations.CallThenRetResumes : Prop :=
  ∀ (n : RegOperand) (s t u : State), s.mem.wf = true → s.status = .running →
    exec (.call n) s = .next t → t.status = .running →
    u.cfg = t.cfg → u.reg 7 = t.reg 7 → u.memRead (t.reg 7) = t.memRead (t.reg 7) →
    Completes .ret u fun w =>
      w.reg 7 = s.reg 7 ∧ w.status = u.status ∧
      w.pc.toNat = (match s.cfg.oob with | .fault => s.pc.toNat + 2 | .wrap => (s.pc.toNat + 2) % 256)

/-! ### Compare and jump -/

/-- CMP (R120, R129): FL becomes `00000100`, `00000010` or `00000001` as the first register is less than, greater than or
equal to the second, unsigned. The direction is the spec's decision D15, the bit places D4. -/
def Obligations.CmpSetsExactlyOneFlag : Prop :=
  ∀ (a b : RegOperand) (s : State) (ra rb : RegIndex),
    regIdx s.cfg.oob a = .ok ra → regIdx s.cfg.oob b = .ok rb →
    Completes (.cmp a b) s fun t =>
      KeepsStorage [] [] s t ∧ t.out = s.out ∧ t.status = s.status ∧ t.fault = s.fault ∧
      t.pc = nextPc s.cfg.oob (s.pc.toNat + 3) ∧
      ((s.reg ra).toNat < (s.reg rb).toNat → t.fl = 0b00000100) ∧
      ((s.reg rb).toNat < (s.reg ra).toNat → t.fl = 0b00000010) ∧
      (s.reg ra = s.reg rb → t.fl = 0b00000001)

/-- JMP (R121): the pc becomes the register. -/
def Obligations.JmpGoesToTheRegister : Prop :=
  ∀ (n : RegOperand) (s : State) (r : RegIndex), regIdx s.cfg.oob n = .ok r →
    Completes (.jmp n) s fun t => Keeps [] [] s t ∧ t.pc.toNat = (s.reg r).toNat

/-- The six conditional jumps (R122 to R128): taken to the register when the condition on FL holds, else on to
`NextPc(pc + 2)`, with nothing else changed. The conditions are the spec's decision D14. -/
def Obligations.ConditionalJumpsFollowTheirFlags : Prop :=
  ∀ (n : RegOperand) (s : State) (r : RegIndex), regIdx s.cfg.oob n = .ok r →
    ∀ p ∈ [(Instr.jeq n, s.fl.getLsbD 0), (Instr.jne n, !s.fl.getLsbD 0), (Instr.jgt n, s.fl.getLsbD 1),
        (Instr.jlt n, s.fl.getLsbD 2), (Instr.jge n, s.fl.getLsbD 1 || s.fl.getLsbD 0),
        (Instr.jle n, s.fl.getLsbD 2 || s.fl.getLsbD 0)],
      Completes p.1 s fun t => Keeps [] [] s t ∧
        (p.2 = true → t.pc.toNat = (s.reg r).toNat) ∧
        (p.2 = false → t.pc = nextPc s.cfg.oob (s.pc.toNat + 2))

/-- After a CMP, with any instructions between that leave FL, each conditional jump goes to its register exactly if the
compared registers stood in its unsigned order at the CMP, else on to `NextPc(pc + 2)`, with nothing else changed (R123 to
R129).
The conditions are the spec's decision D14, the direction D15, the policy D5. -/
def Obligations.JumpsAfterCmpDecideTheOrder : Prop :=
  ∀ (a b n : RegOperand) (s t u : State) (ra rb r : RegIndex),
    regIdx s.cfg.oob a = .ok ra → regIdx s.cfg.oob b = .ok rb → exec (.cmp a b) s = .next t →
    u.fl = t.fl → regIdx u.cfg.oob n = .ok r →
    ∀ p ∈ [(Instr.jeq n, decide ((s.reg ra).toNat = (s.reg rb).toNat)),
        (Instr.jne n, decide ((s.reg ra).toNat ≠ (s.reg rb).toNat)),
        (Instr.jgt n, decide ((s.reg ra).toNat > (s.reg rb).toNat)),
        (Instr.jlt n, decide ((s.reg ra).toNat < (s.reg rb).toNat)),
        (Instr.jge n, decide ((s.reg ra).toNat ≥ (s.reg rb).toNat)),
        (Instr.jle n, decide ((s.reg ra).toNat ≤ (s.reg rb).toNat))],
      Completes p.1 u fun w => Keeps [] [] u w ∧
        (p.2 = true → w.pc.toNat = (u.reg r).toNat) ∧
        (p.2 = false → w.pc = nextPc u.cfg.oob (u.pc.toNat + 2)) ∧
        jumpTaken p.1 u.fl = p.2

/-! ### ALU -/

/-- ADD, SUB, MUL (R141 to R143, R155): the first register takes the result modulo 256, and nothing else changes but the
pc; with one register twice its old value stands on both sides (R156).
That the first register is the destination is the spec's decision D16. -/
def Obligations.AddSubMulWrapModulo256 : Prop :=
  ∀ (a b : RegOperand) (s : State) (ra rb : RegIndex),
    regIdx s.cfg.oob a = .ok ra → regIdx s.cfg.oob b = .ok rb →
    Completes (.add a b) s (fun t => Keeps [ra] [] s t ∧ t.pc = nextPc s.cfg.oob (s.pc.toNat + 3) ∧
      (t.reg ra).toNat = ((s.reg ra).toNat + (s.reg rb).toNat) % 256) ∧
    Completes (.sub a b) s (fun t => Keeps [ra] [] s t ∧ t.pc = nextPc s.cfg.oob (s.pc.toNat + 3) ∧
      ((t.reg ra).toNat : Int) = ((s.reg ra).toNat - (s.reg rb).toNat : Int) % 256) ∧
    Completes (.mul a b) s (fun t => Keeps [ra] [] s t ∧ t.pc = nextPc s.cfg.oob (s.pc.toNat + 3) ∧
      (t.reg ra).toNat = ((s.reg ra).toNat * (s.reg rb).toNat) % 256)

/-- DIV and MOD by a register that is not 0 (R144, R145): the first register takes the quotient, or the remainder, of the
unsigned division. -/
def Obligations.DivAndModDivideUnsigned : Prop :=
  ∀ (a b : RegOperand) (s : State) (ra rb : RegIndex),
    regIdx s.cfg.oob a = .ok ra → regIdx s.cfg.oob b = .ok rb → s.reg rb ≠ 0 →
    Completes (.div a b) s (fun t => Keeps [ra] [] s t ∧ t.pc = nextPc s.cfg.oob (s.pc.toNat + 3) ∧
      (t.reg ra).toNat = (s.reg ra).toNat / (s.reg rb).toNat) ∧
    Completes (.mod a b) s (fun t => Keeps [ra] [] s t ∧ t.pc = nextPc s.cfg.oob (s.pc.toNat + 3) ∧
      (t.reg ra).toNat = (s.reg ra).toNat % (s.reg rb).toNat)

/-- DIV and MOD by a register that is 0 raise `DivisionByZero` and do not alter the destination register (R144, R145). -/
def Obligations.DivisionByZeroRaises : Prop :=
  ∀ (a b : RegOperand) (s : State) (ra rb : RegIndex),
    regIdx s.cfg.oob a = .ok ra → regIdx s.cfg.oob b = .ok rb → s.reg rb = 0 →
    Raises (.div a b) s .divisionByZero ∧ Raises (.mod a b) s .divisionByZero

/-- INC and DEC wrap modulo 256 under either policy, for register 7 too (R146, R147); NOT is `255 - x` (R151). -/
def Obligations.IncDecNotChangeTheRegister : Prop :=
  ∀ (a : RegOperand) (s : State) (ra : RegIndex), regIdx s.cfg.oob a = .ok ra →
    Completes (.inc a) s (fun t => Keeps [ra] [] s t ∧ t.pc = nextPc s.cfg.oob (s.pc.toNat + 2) ∧
      (t.reg ra).toNat = ((s.reg ra).toNat + 1) % 256) ∧
    Completes (.dec a) s (fun t => Keeps [ra] [] s t ∧ t.pc = nextPc s.cfg.oob (s.pc.toNat + 2) ∧
      ((t.reg ra).toNat : Int) = ((s.reg ra).toNat - 1 : Int) % 256) ∧
    Completes (.not a) s (fun t => Keeps [ra] [] s t ∧ t.pc = nextPc s.cfg.oob (s.pc.toNat + 2) ∧
      (t.reg ra).toNat = 255 - (s.reg ra).toNat)

/-- AND, OR, XOR work bit by bit (R148 to R150). -/
def Obligations.LogicWorksBitByBit : Prop :=
  ∀ (a b : RegOperand) (s : State) (ra rb : RegIndex),
    regIdx s.cfg.oob a = .ok ra → regIdx s.cfg.oob b = .ok rb →
    Completes (.and a b) s (fun t => Keeps [ra] [] s t ∧ t.pc = nextPc s.cfg.oob (s.pc.toNat + 3) ∧
      ∀ i, i < 8 → (t.reg ra).getLsbD i = ((s.reg ra).getLsbD i && (s.reg rb).getLsbD i)) ∧
    Completes (.or a b) s (fun t => Keeps [ra] [] s t ∧ t.pc = nextPc s.cfg.oob (s.pc.toNat + 3) ∧
      ∀ i, i < 8 → (t.reg ra).getLsbD i = ((s.reg ra).getLsbD i || (s.reg rb).getLsbD i)) ∧
    Completes (.xor a b) s (fun t => Keeps [ra] [] s t ∧ t.pc = nextPc s.cfg.oob (s.pc.toNat + 3) ∧
      ∀ i, i < 8 → (t.reg ra).getLsbD i = Bool.xor ((s.reg ra).getLsbD i) ((s.reg rb).getLsbD i))

/-- SHL and SHR by the whole 8-bit amount (R152, R153): `x * 2^k` modulo 256 and `x` divided by `2^k`, so 0 from 8 on.
That the amount is the unmasked second register is the spec's decision D17. -/
def Obligations.ShiftsUseTheWholeAmount : Prop :=
  ∀ (a b : RegOperand) (s : State) (ra rb : RegIndex),
    regIdx s.cfg.oob a = .ok ra → regIdx s.cfg.oob b = .ok rb →
    Completes (.shl a b) s (fun t => Keeps [ra] [] s t ∧ t.pc = nextPc s.cfg.oob (s.pc.toNat + 3) ∧
      (t.reg ra).toNat = (s.reg ra).toNat * 2 ^ (s.reg rb).toNat % 256 ∧ (8 ≤ (s.reg rb).toNat → t.reg ra = 0)) ∧
    Completes (.shr a b) s (fun t => Keeps [ra] [] s t ∧ t.pc = nextPc s.cfg.oob (s.pc.toNat + 3) ∧
      (t.reg ra).toNat = (s.reg ra).toNat / 2 ^ (s.reg rb).toNat ∧ (8 ≤ (s.reg rb).toNat → t.reg ra = 0))
end

