-- ==== Sys2Proof/Laws/State.lean ====
section
/-! SUPPORT. What each update of the state does to each field. -/

namespace Sys2Proof.Machine

variable (s : State) (r : RegIndex) (a v : Byte) (t : PcWord) (k : EventKind) (o : Option Byte) (c : Cause)

@[simp] theorem setReg_cfg : (s.setReg r v).cfg = s.cfg := rfl
@[simp] theorem setReg_regs : (s.setReg r v).regs = s.regs.set r v := rfl
@[simp] theorem setReg_pc : (s.setReg r v).pc = s.pc := rfl
@[simp] theorem setReg_fl : (s.setReg r v).fl = s.fl := rfl
@[simp] theorem setReg_ie : (s.setReg r v).ie = s.ie := rfl
@[simp] theorem setReg_mem : (s.setReg r v).mem = s.mem := rfl
@[simp] theorem setReg_status : (s.setReg r v).status = s.status := rfl
@[simp] theorem setReg_fault : (s.setReg r v).fault = s.fault := rfl
@[simp] theorem setReg_out : (s.setReg r v).out = s.out := rfl

@[simp] theorem memWrite_cfg : (s.memWrite a v).cfg = s.cfg := rfl
@[simp] theorem memWrite_regs : (s.memWrite a v).regs = s.regs := rfl
@[simp] theorem memWrite_pc : (s.memWrite a v).pc = s.pc := rfl
@[simp] theorem memWrite_fl : (s.memWrite a v).fl = s.fl := rfl
@[simp] theorem memWrite_ie : (s.memWrite a v).ie = s.ie := rfl
@[simp] theorem memWrite_mem : (s.memWrite a v).mem = s.mem.write a.toNat v := rfl
@[simp] theorem memWrite_status : (s.memWrite a v).status = s.status := rfl
@[simp] theorem memWrite_fault : (s.memWrite a v).fault = s.fault := rfl
@[simp] theorem memWrite_out : (s.memWrite a v).out = s.out := rfl

@[simp] theorem setPc_cfg : (s.setPc t).cfg = s.cfg := rfl
@[simp] theorem setPc_regs : (s.setPc t).regs = s.regs := rfl
@[simp] theorem setPc_pc : (s.setPc t).pc = t := rfl
@[simp] theorem setPc_fl : (s.setPc t).fl = s.fl := rfl
@[simp] theorem setPc_ie : (s.setPc t).ie = s.ie := rfl
@[simp] theorem setPc_mem : (s.setPc t).mem = s.mem := rfl
@[simp] theorem setPc_status : (s.setPc t).status = s.status := rfl
@[simp] theorem setPc_fault : (s.setPc t).fault = s.fault := rfl
@[simp] theorem setPc_out : (s.setPc t).out = s.out := rfl

@[simp] theorem jumpTo_cfg : (s.jumpTo v).cfg = s.cfg := rfl
@[simp] theorem jumpTo_regs : (s.jumpTo v).regs = s.regs := rfl
@[simp] theorem jumpTo_pc : (s.jumpTo v).pc = v.setWidth 9 := rfl
@[simp] theorem jumpTo_fl : (s.jumpTo v).fl = s.fl := rfl
@[simp] theorem jumpTo_ie : (s.jumpTo v).ie = s.ie := rfl
@[simp] theorem jumpTo_mem : (s.jumpTo v).mem = s.mem := rfl
@[simp] theorem jumpTo_status : (s.jumpTo v).status = s.status := rfl
@[simp] theorem jumpTo_fault : (s.jumpTo v).fault = s.fault := rfl
@[simp] theorem jumpTo_out : (s.jumpTo v).out = s.out := rfl

@[simp] theorem setFl_cfg : (s.setFl v).cfg = s.cfg := rfl
@[simp] theorem setFl_regs : (s.setFl v).regs = s.regs := rfl
@[simp] theorem setFl_pc : (s.setFl v).pc = s.pc := rfl
@[simp] theorem setFl_fl : (s.setFl v).fl = v := rfl
@[simp] theorem setFl_ie : (s.setFl v).ie = s.ie := rfl
@[simp] theorem setFl_mem : (s.setFl v).mem = s.mem := rfl
@[simp] theorem setFl_status : (s.setFl v).status = s.status := rfl
@[simp] theorem setFl_fault : (s.setFl v).fault = s.fault := rfl
@[simp] theorem setFl_out : (s.setFl v).out = s.out := rfl

@[simp] theorem emit_cfg : (s.emit k v).cfg = s.cfg := rfl
@[simp] theorem emit_regs : (s.emit k v).regs = s.regs := rfl
@[simp] theorem emit_pc : (s.emit k v).pc = s.pc := rfl
@[simp] theorem emit_fl : (s.emit k v).fl = s.fl := rfl
@[simp] theorem emit_ie : (s.emit k v).ie = s.ie := rfl
@[simp] theorem emit_mem : (s.emit k v).mem = s.mem := rfl
@[simp] theorem emit_status : (s.emit k v).status = s.status := rfl
@[simp] theorem emit_fault : (s.emit k v).fault = s.fault := rfl
@[simp] theorem emit_out : (s.emit k v).out = s.out ++ [⟨k, v⟩] := rfl

@[simp] theorem halt_cfg : (s.halt).cfg = s.cfg := rfl
@[simp] theorem halt_regs : (s.halt).regs = s.regs := rfl
@[simp] theorem halt_pc : (s.halt).pc = s.pc := rfl
@[simp] theorem halt_fl : (s.halt).fl = s.fl := rfl
@[simp] theorem halt_ie : (s.halt).ie = s.ie := rfl
@[simp] theorem halt_mem : (s.halt).mem = s.mem := rfl
@[simp] theorem halt_status : (s.halt).status = .halted := rfl
@[simp] theorem halt_fault : (s.halt).fault = s.fault := rfl
@[simp] theorem halt_out : (s.halt).out = s.out := rfl

@[simp] theorem raise_cfg : (s.raise o c).cfg = s.cfg := rfl
@[simp] theorem raise_regs : (s.raise o c).regs = s.regs := rfl
@[simp] theorem raise_pc : (s.raise o c).pc = s.pc := rfl
@[simp] theorem raise_fl : (s.raise o c).fl = s.fl := rfl
@[simp] theorem raise_ie : (s.raise o c).ie = s.ie := rfl
@[simp] theorem raise_mem : (s.raise o c).mem = s.mem := rfl
@[simp] theorem raise_status : (s.raise o c).status = .faulted := rfl
@[simp] theorem raise_fault : (s.raise o c).fault = some ⟨c, s.pc, o⟩ := rfl
@[simp] theorem raise_out : (s.raise o c).out = s.out := rfl

@[simp] theorem setReg_memRead (b : Byte) : (s.setReg r v).memRead b = s.memRead b := rfl
@[simp] theorem memWrite_reg (q : RegIndex) : (s.memWrite a v).reg q = s.reg q := rfl
@[simp] theorem setPc_reg (q : RegIndex) : (s.setPc t).reg q = s.reg q := rfl
@[simp] theorem setPc_memRead (b : Byte) : (s.setPc t).memRead b = s.memRead b := rfl
@[simp] theorem jumpTo_reg (q : RegIndex) : (s.jumpTo v).reg q = s.reg q := rfl
@[simp] theorem jumpTo_memRead (b : Byte) : (s.jumpTo v).memRead b = s.memRead b := rfl
@[simp] theorem setFl_reg (q : RegIndex) : (s.setFl v).reg q = s.reg q := rfl
@[simp] theorem setFl_memRead (b : Byte) : (s.setFl v).memRead b = s.memRead b := rfl
@[simp] theorem emit_reg (q : RegIndex) : (s.emit k v).reg q = s.reg q := rfl
@[simp] theorem emit_memRead (b : Byte) : (s.emit k v).memRead b = s.memRead b := rfl
@[simp] theorem halt_reg (q : RegIndex) : (s.halt).reg q = s.reg q := rfl
@[simp] theorem halt_memRead (b : Byte) : (s.halt).memRead b = s.memRead b := rfl
@[simp] theorem raise_reg (q : RegIndex) : (s.raise o c).reg q = s.reg q := rfl
@[simp] theorem raise_memRead (b : Byte) : (s.raise o c).memRead b = s.memRead b := rfl

/-- A register reads back what was written to it; the others keep their value (R20). -/
theorem setReg_reg (q : RegIndex) : (s.setReg r v).reg q = if q = r then v else s.reg q := by
  simp only [State.setReg, State.reg, Fin.getElem_fin, Vector.getElem_set, Fin.val_inj]
  split <;> split <;> simp_all

@[simp] theorem setReg_reg_same : (s.setReg r v).reg r = v := by simp [setReg_reg]

theorem setReg_reg_of_ne {q : RegIndex} (h : q ≠ r) : (s.setReg r v).reg q = s.reg q := by simp [setReg_reg, h]

end Sys2Proof.Machine
end

