-- ==== Sys2Proof/Laws/Memory.lean ====
section
/-! SUPPORT. Memory is storage, and every operation on it keeps the canonical form (R33). -/

namespace Sys2Proof.Machine

theorem Memory.wf_iff (m : Memory) :
    m.wf = true ↔ m.Pairwise (fun c d => c.1 < d.1) ∧ ∀ c ∈ m, c.1 < 256 ∧ c.2 ≠ Memory.unlisted := by
  simp [Memory.wf]

theorem Memory.wf_cons (c : Host.Cell) (m : Memory) :
    Memory.wf (c :: m) = true ↔
      (c.1 < 256 ∧ c.2 ≠ Memory.unlisted ∧ ∀ d ∈ m, c.1 < d.1) ∧ m.wf = true := by
  simp only [Memory.wf_iff, List.pairwise_cons, List.forall_mem_cons]
  tauto

@[simp] theorem Memory.wf_nil : Memory.wf [] = true := by simp [Memory.wf_iff]

/-- An address below every entry has none. -/
theorem Memory.read_of_lt {m : Memory} {a : Nat} (h : ∀ d ∈ m, a < d.1) : m.read a = Memory.unlisted := by
  induction m with
  | nil => rfl
  | cons c m ih =>
    have hc : a < c.1 := h c (by simp)
    rw [Memory.read, if_neg (by omega)]
    exact ih fun d hd => h d (by simp [hd])

theorem Memory.read_entry_ne (m : Memory) {a b : Nat} (v : Byte) (h : b ≠ a) :
    (Memory.entry a v m).read b = m.read b := by
  unfold Memory.entry
  split <;> simp [Memory.read, Ne.symm h]

/-- A write leaves every other cell alone. -/
theorem Memory.read_write_ne (m : Memory) {a b : Nat} (v : Byte) (h : b ≠ a) : (m.write a v).read b = m.read b := by
  induction m with
  | nil => simpa [Memory.write] using Memory.read_entry_ne [] v h
  | cons c m ih =>
    obtain ⟨k, w⟩ := c
    unfold Memory.write
    split
    · exact Memory.read_entry_ne _ v h
    · split
      · rename_i hk
        rw [Memory.read_entry_ne _ v h, Memory.read, if_neg (by omega)]
      · simp only [Memory.read, ih]

/-- A cell reads back what was written to it. -/
theorem Memory.read_write_same {m : Memory} (hm : m.wf = true) (a : Nat) (v : Byte) : (m.write a v).read a = v := by
  have entry (m : Memory) (h : ∀ d ∈ m, a < d.1) : (Memory.entry a v m).read a = v := by
    unfold Memory.entry
    split
    · rw [Memory.read_of_lt h]; simp_all
    · simp [Memory.read]
  induction m with
  | nil => exact entry [] (by simp)
  | cons c m ih =>
    obtain ⟨k, w⟩ := c
    obtain ⟨⟨_, _, hlt⟩, hm'⟩ := (Memory.wf_cons _ _).1 hm
    unfold Memory.write
    split
    · rename_i hk
      refine entry _ fun d hd => ?_
      rcases List.mem_cons.1 hd with rfl | hd
      · exact hk
      · exact Nat.lt_trans hk (hlt d hd)
    · split
      · rename_i hk
        exact entry m fun d hd => hk ▸ hlt d hd
      · rename_i hk
        rw [Memory.read, if_neg (by omega)]
        exact ih hm'

theorem Memory.mem_write {m : Memory} {a : Nat} {v : Byte} {d : Host.Cell} (h : d ∈ m.write a v) :
    d = (a, v) ∧ v ≠ Memory.unlisted ∨ d ∈ m := by
  have entry (m : Memory) (h : d ∈ Memory.entry a v m) : d = (a, v) ∧ v ≠ Memory.unlisted ∨ d ∈ m := by
    unfold Memory.entry at h
    split at h <;> simp_all
  induction m with
  | nil => exact entry [] h
  | cons c m ih =>
    obtain ⟨k, w⟩ := c
    unfold Memory.write at h
    split at h
    · exact entry _ h
    · split at h
      · rcases entry _ h with h | h <;> simp_all
      · rcases List.mem_cons.1 h with h | h
        · simp_all
        · rcases ih h with h | h <;> simp_all

/-- A write keeps the canonical form. -/
theorem Memory.wf_write {m : Memory} (hm : m.wf = true) {a : Nat} (ha : a < 256) (v : Byte) :
    (m.write a v).wf = true := by
  have entry (m : Memory) (hm : m.wf = true) (h : ∀ d ∈ m, a < d.1) : (Memory.entry a v m).wf = true := by
    unfold Memory.entry
    split
    · exact hm
    · exact (Memory.wf_cons _ _).2 ⟨⟨ha, by assumption, h⟩, hm⟩
  induction m with
  | nil => exact entry [] hm (by simp)
  | cons c m ih =>
    obtain ⟨k, w⟩ := c
    obtain ⟨⟨h256, hw, hlt⟩, hm'⟩ := (Memory.wf_cons _ _).1 hm
    unfold Memory.write
    split
    · rename_i hk
      refine entry _ hm fun d hd => ?_
      rcases List.mem_cons.1 hd with rfl | hd
      · exact hk
      · exact Nat.lt_trans hk (hlt d hd)
    · split
      · rename_i hk
        exact entry m hm' fun d hd => hk ▸ hlt d hd
      · refine (Memory.wf_cons _ _).2 ⟨⟨h256, hw, fun d hd => ?_⟩, ih hm'⟩
        rcases Memory.mem_write hd with ⟨rfl, _⟩ | hd
        · simp only; omega
        · exact hlt d hd

/-- A byte address names a cell. -/
theorem byte_toNat_lt (a : Byte) : a.toNat < 256 := a.isLt

theorem memWrite_wf {s : State} (h : s.mem.wf = true) (a v : Byte) : (s.memWrite a v).mem.wf = true :=
  Memory.wf_write h (byte_toNat_lt a) v

theorem memRead_memWrite_same {s : State} (h : s.mem.wf = true) (a v : Byte) : (s.memWrite a v).memRead a = v :=
  Memory.read_write_same h _ _

theorem memRead_memWrite_ne (s : State) {a b : Byte} (v : Byte) (h : b ≠ a) :
    (s.memWrite a v).memRead b = s.memRead b :=
  Memory.read_write_ne _ _ fun hh => h (BitVec.eq_of_toNat_eq hh)

/-- Reset memory is in the canonical form. -/
theorem resetWith_mem_wf (cfg : Config) : (State.resetWith cfg).mem.wf = true := Memory.wf_nil

end Sys2Proof.Machine
end

