-- ==== Sys2Proof/Laws/Ops.lean ====
section
/-! SUPPORT. One lemma for each shared operation that says everything it can do. -/

namespace Sys2Proof.Machine

/-! ### The range functions (R10) -/

theorem inRange_ok_iff {p : OobPolicy} {what : RangeKind} {v : Int} {b : Byte} :
    inRange p what v = .ok b ↔ (p = .wrap ∨ 0 ≤ v ∧ v ≤ 255) ∧ b = BitVec.ofInt 8 v := by
  unfold inRange
  split
  · simp_all [eq_comm]
  · cases p <;> simp_all [eq_comm]

theorem inRange_error_iff {p : OobPolicy} {what : RangeKind} {v : Int} {c : Cause} :
    inRange p what v = .error c ↔ p = .fault ∧ ¬(0 ≤ v ∧ v ≤ 255) ∧ c = .outOfRange what v := by
  unfold inRange
  split
  · simp_all
  · cases p <;> simp_all [eq_comm]

theorem regIdx_ok_iff {p : OobPolicy} {n : RegOperand} {r : RegIndex} :
    regIdx p n = .ok r ↔ (p = .wrap ∨ n.toNat ≤ 7) ∧ r = namedReg n := by
  unfold regIdx namedReg
  split
  · simp_all [eq_comm]
  · cases p <;> simp_all [eq_comm]

theorem regIdx_error_iff {p : OobPolicy} {n : RegOperand} {c : Cause} :
    regIdx p n = .error c ↔ p = .fault ∧ 7 < n.toNat ∧ c = .outOfRange .regIndex n.toNat := by
  unfold regIdx
  split
  · rename_i h; simp [h]
  · cases p <;> simp_all [eq_comm]

theorem nextPc_fault_toNat (v : Nat) : (nextPc .fault v).toNat = v % 512 := by simp [nextPc]

theorem nextPc_wrap_toNat (v : Nat) : (nextPc .wrap v).toNat = v % 256 := by
  simp [nextPc]; omega

/-- A byte's jump target is the byte (R121). -/
@[simp] theorem jumpTo_pc_toNat (s : State) (v : Byte) : (s.jumpTo v).pc.toNat = v.toNat := by
  have : v.toNat < 512 := by have := v.isLt; omega
  simp [State.jumpTo, State.setPc, Nat.mod_eq_of_lt this]

/-! ### Checked computations -/

theorem bind_ok_iff {α β : Type} {x : Checked α} {f : α → Checked β} {b : β} :
    x.bind f = .ok b ↔ ∃ a, x = .ok a ∧ f a = .ok b := by
  cases x <;> simp [Except.bind]

theorem bind_error_iff {α β : Type} {x : Checked α} {f : α → Checked β} {c : Cause} :
    x.bind f = .error c ↔ x = .error c ∨ ∃ a, x = .ok a ∧ f a = .error c := by
  cases x <;> simp [Except.bind]

theorem withReg_ok_iff {s u : State} {n : RegOperand} {h : RegIndex → Checked State} :
    withReg s n h = .ok u ↔ (s.cfg.oob = .wrap ∨ n.toNat ≤ 7) ∧ h (namedReg n) = .ok u := by
  simp only [withReg, bind_ok_iff, regIdx_ok_iff]
  constructor
  · rintro ⟨_, ⟨hp, rfl⟩, hh⟩; exact ⟨hp, hh⟩
  · rintro ⟨hp, hh⟩; exact ⟨_, ⟨hp, rfl⟩, hh⟩

theorem withRegs_ok_iff {s u : State} {a b : RegOperand} {h : RegIndex → RegIndex → Checked State} :
    withRegs s a b h = .ok u ↔
      (s.cfg.oob = .wrap ∨ a.toNat ≤ 7 ∧ b.toNat ≤ 7) ∧ h (namedReg a) (namedReg b) = .ok u := by
  simp only [withRegs, bind_ok_iff, regIdx_ok_iff]
  constructor
  · rintro ⟨_, ⟨ha, rfl⟩, _, ⟨hb, rfl⟩, hh⟩; exact ⟨by tauto, hh⟩
  · rintro ⟨hp, hh⟩; exact ⟨_, ⟨by tauto, rfl⟩, _, ⟨by tauto, rfl⟩, hh⟩

theorem withReg_of_ok {s : State} {n : RegOperand} {r : RegIndex} (h : regIdx s.cfg.oob n = .ok r)
    (f : RegIndex → Checked State) : withReg s n f = f r := by
  simp [withReg, h, Except.bind]

theorem withRegs_of_ok {s : State} {a b : RegOperand} {ra rb : RegIndex} (ha : regIdx s.cfg.oob a = .ok ra)
    (hb : regIdx s.cfg.oob b = .ok rb) (f : RegIndex → RegIndex → Checked State) : withRegs s a b f = f ra rb := by
  simp [withRegs, ha, hb, Except.bind]

/-! ### Performing an instruction (R80, R86, R172) -/

/-- `perform` always answers a next state: the handler's, advanced, or the raised fault. -/
theorem perform_next_iff {op : Op} {s t : State} {h : Checked State} :
    perform op s h = .next t ↔
      (∃ u, h = .ok u ∧ t = autoAdvance op s u) ∨
      ∃ c, h = .error c ∧ t = s.raise (some (s.cfg.opcodeMap.byteOf op)) c := by
  cases h <;> simp [perform, eq_comm]

/-- The auto-advance changes the pc at most. -/
theorem autoAdvance_eq (op : Op) (s t : State) : ∃ pc, autoAdvance op s t = t.setPc pc := by
  unfold autoAdvance
  split
  · exact ⟨t.pc, rfl⟩
  · exact ⟨_, rfl⟩

variable (op : Op) (s t : State)

@[simp] theorem autoAdvance_cfg : (autoAdvance op s t).cfg = t.cfg := by
  unfold autoAdvance; split <;> rfl

@[simp] theorem autoAdvance_regs : (autoAdvance op s t).regs = t.regs := by
  unfold autoAdvance; split <;> rfl

@[simp] theorem autoAdvance_fl : (autoAdvance op s t).fl = t.fl := by
  unfold autoAdvance; split <;> rfl

@[simp] theorem autoAdvance_ie : (autoAdvance op s t).ie = t.ie := by
  unfold autoAdvance; split <;> rfl

@[simp] theorem autoAdvance_mem : (autoAdvance op s t).mem = t.mem := by
  unfold autoAdvance; split <;> rfl

@[simp] theorem autoAdvance_status : (autoAdvance op s t).status = t.status := by
  unfold autoAdvance; split <;> rfl

@[simp] theorem autoAdvance_fault : (autoAdvance op s t).fault = t.fault := by
  unfold autoAdvance; split <;> rfl

@[simp] theorem autoAdvance_out : (autoAdvance op s t).out = t.out := by
  unfold autoAdvance; split <;> rfl

@[simp] theorem autoAdvance_reg (r : RegIndex) : (autoAdvance op s t).reg r = t.reg r := by
  unfold autoAdvance; split <;> rfl

@[simp] theorem autoAdvance_memRead (a : Byte) : (autoAdvance op s t).memRead a = t.memRead a := by
  unfold autoAdvance; split <;> rfl

theorem autoAdvance_pc :
    (autoAdvance op s t).pc = if op.setsPc then t.pc else nextPc s.cfg.oob (s.pc.toNat + 1 + op.operandCount) := by
  unfold autoAdvance; split <;> rfl

end Sys2Proof.Machine
end

