-- ==== Sys2Proof/Laws/Exec.lean ====
section
/-! SUPPORT. What performing an instruction can do, said once for all instructions. -/

namespace Sys2Proof.Machine

/-- The handler of an instruction (R67): its checks and its own writes, before the auto-advance. -/
def handler (i : Instr) (s : State) : Checked State :=
  match i with
  | .nop => handleNop s
  | .hlt => handleHlt s
  | .ldi n imm => handleLdi n imm s
  | .ld a b => handleLd a b s
  | .st a b => handleSt a b s
  | .push n => handlePush n s
  | .pop n => handlePop n s
  | .prn n => handlePrn n s
  | .pra n => handlePra n s
  | .call n => handleCall n s
  | .ret => handleRet s
  | .int n => handleInt n s
  | .iret => handleIret s
  | .jmp n => handleJmp n s
  | .jeq n => handleJeq n s
  | .jne n => handleJne n s
  | .jgt n => handleJgt n s
  | .jlt n => handleJlt n s
  | .jle n => handleJle n s
  | .jge n => handleJge n s
  | .add a b => handleAdd a b s
  | .sub a b => handleSub a b s
  | .mul a b => handleMul a b s
  | .div a b => handleDiv a b s
  | .mod a b => handleMod a b s
  | .inc a => handleInc a s
  | .dec a => handleDec a s
  | .cmp a b => handleCmp a b s
  | .and a b => handleAnd a b s
  | .not a => handleNot a s
  | .or a b => handleOr a b s
  | .xor a b => handleXor a b s
  | .shl a b => handleShl a b s
  | .shr a b => handleShr a b s

/-- Every instruction is its handler performed in the common frame (R80). -/
theorem exec_eq_perform (i : Instr) (s : State) : exec i s = perform i.op s (handler i s) := by
  cases i <;> rfl

/-- Performing an instruction always answers a next state: its handler's, advanced, or the raised fault (R80, R172). -/
theorem exec_next_iff {i : Instr} {s t : State} :
    exec i s = .next t ↔
      (∃ u, handler i s = .ok u ∧ t = autoAdvance i.op s u) ∨
      ∃ c, handler i s = .error c ∧ t = s.raise (some (s.cfg.opcodeMap.byteOf i.op)) c := by
  rw [exec_eq_perform, perform_next_iff]

/-- No instruction stops the model. -/
theorem exec_total (i : Instr) (s : State) : ∃ t, exec i s = .next t := by
  rw [exec_eq_perform]
  cases handler i s
  · exact ⟨_, rfl⟩
  · exact ⟨_, rfl⟩

/-- No step stops the model. -/
theorem step_total (s : State) : ∃ t, step s = .next t := by
  unfold step
  cases s.status
  · simp only
    cases fetch s
    · exact ⟨_, rfl⟩
    · exact exec_total _ _
  · exact ⟨s, rfl⟩
  · exact ⟨s, rfl⟩

/-- The step of a running machine whose fetch succeeds is the fetched instruction performed (R80). -/
theorem step_of_fetch_ok {s : State} {i : Instr} (h : s.status = .running) (hf : fetch s = .ok i) :
    step s = exec i s := by
  simp [step, h, hf]

/-- The step of a running machine whose fetch fails raises the fault of the fetch (R80, R172). -/
theorem step_of_fetch_error {s : State} {opcode : Option Byte} {c : Cause} (h : s.status = .running)
    (hf : fetch s = .error (opcode, c)) : step s = .next (s.raise opcode c) := by
  simp [step, h, hf]

/-- Everything a step can do: nothing when stopped, else the fetch's fault, or the instruction's handler, advanced, or
its fault. -/
theorem step_cases {s t : State} (h : step s = .next t) :
    s.status ≠ .running ∧ t = s ∨
    s.status = .running ∧
      ((∃ opcode c, fetch s = .error (opcode, c) ∧ t = s.raise opcode c) ∨
       ∃ i, fetch s = .ok i ∧
        ((∃ u, handler i s = .ok u ∧ t = autoAdvance i.op s u) ∨
         ∃ c, handler i s = .error c ∧ t = s.raise (some (s.cfg.opcodeMap.byteOf i.op)) c)) := by
  by_cases hs : s.status = .running
  · refine .inr ⟨hs, ?_⟩
    rcases hf : fetch s with ⟨opcode, c⟩ | i
    · rw [step_of_fetch_error hs hf] at h
      exact .inl ⟨_, _, rfl, by simpa [eq_comm] using h⟩
    · rw [step_of_fetch_ok hs hf] at h
      exact .inr ⟨_, rfl, exec_next_iff.1 h⟩
  · refine .inl ⟨hs, ?_⟩
    cases hs' : s.status <;> simp_all [step]

/-- A machine that is not RUNNING takes no step (R87). -/
theorem step_of_stopped {s : State} (h : s.status ≠ .running) : step s = .next s := by
  cases hs : s.status <;> simp_all [step]

end Sys2Proof.Machine
end

