-- ==== Sys2Proof/Laws/Fetch.lean ====
section
/-! SUPPORT. What the decoder and the fetch can do, and that placing code keeps memory canonical. -/

namespace Sys2Proof

/-! ### The opcode map -/

theorem Op.mem_all (op : Op) : op ∈ Op.all := by cases op <;> decide

/-- An instruction has at most two operand bytes (R60). -/
theorem Op.operandCount_le_two (op : Op) : op.operandCount ≤ 2 := by cases op <;> decide

@[simp] theorem Op.instr_op (op : Op) (opa opb : Byte) : (op.instr opa opb).op = op := by cases op <;> rfl

/-- A recognised byte is its mnemonic's row (R66). -/
theorem OpcodeMap.byteOf_of_lookup {m : OpcodeMap} {ir : Byte} {op : Op} (h : m.lookup ir = some op) :
    m.byteOf op = ir := by
  simpa using List.find?_some h

/-- The row of a mnemonic is recognised as that mnemonic (R65, R66). -/
theorem OpcodeMap.lookup_byteOf {m : OpcodeMap} (hm : m.wf = true) (op : Op) : m.lookup (m.byteOf op) = some op := by
  have hnd : (Op.all.map m.byteOf).Nodup := by
    simp only [OpcodeMap.wf, Bool.and_eq_true, decide_eq_true_eq] at hm
    exact hm.1
  have hs : (m.lookup (m.byteOf op)).isSome = true :=
    List.find?_isSome.2 ⟨op, op.mem_all, by simp⟩
  obtain ⟨op', h⟩ := Option.isSome_iff_exists.1 hs
  rw [h, List.inj_on_of_nodup_map hnd op'.mem_all op.mem_all (byteOf_of_lookup h)]

/-- The fields of an opcode byte agree with its row (R65). -/
theorem OpcodeMap.fields_of_wf {m : OpcodeMap} (hm : m.wf = true) (op : Op) :
    opcodeN (m.byteOf op) = op.operandCount ∧ opcodeA (m.byteOf op) = op.isAlu ∧
      opcodeC (m.byteOf op) = op.setsPc ∧ m.byteOf op ≠ 0xFF#8 := by
  simp only [OpcodeMap.wf, Bool.and_eq_true, List.all_eq_true, beq_iff_eq, bne_iff_ne, and_assoc] at hm
  exact hm.2 op op.mem_all

/-- What the operand bytes can give. -/
theorem decodeOperands_ok {op : Op} {bytes rest : List Byte} {i : Instr}
    (h : decodeOperands op bytes = .ok (i, rest)) :
    (op.operandCount = 0 ∧ bytes = rest ∧ i = op.instr 0 0) ∨
    (op.operandCount = 1 ∧ ∃ opa, bytes = opa :: rest ∧ i = op.instr opa 0) ∨
    (op.operandCount = 2 ∧ ∃ opa opb, bytes = opa :: opb :: rest ∧ i = op.instr opa opb) := by
  unfold decodeOperands at h
  unfold Op.operandCount
  split at h <;> simp_all [Format.operandCount]

namespace Machine

/-! ### The fetch -/

theorem addr_of_le {p : OobPolicy} {k : RangeKind} {v : Nat} (h : v ≤ 255 ∨ p = .wrap) :
    addr p k (v : Int) = .ok (BitVec.ofNat 8 v) := by
  refine inRange_ok_iff.2 ⟨?_, (BitVec.ofInt_natCast 8 v).symm⟩
  rcases h with h | h
  · exact .inr ⟨by omega, by omega⟩
  · exact .inl h

theorem addr_fault_of_gt {k : RangeKind} {v : Nat} (h : 256 ≤ v) :
    addr .fault k (v : Int) = .error (.outOfRange k v) :=
  inRange_error_iff.2 ⟨rfl, by omega, rfl⟩

theorem fetchOpcode_ok {s : State} (h : s.pc.toNat ≤ 255 ∨ s.cfg.oob = .wrap) :
    fetchOpcode s = .ok (s.memRead (BitVec.ofNat 8 s.pc.toNat)) := by
  rw [fetchOpcode, addr_of_le h]; rfl

theorem fetchOpcode_error {s : State} (hp : s.cfg.oob = .fault) (h : 256 ≤ s.pc.toNat) :
    fetchOpcode s = .error (.outOfRange .fetchAddr s.pc.toNat) := by
  rw [fetchOpcode, hp, addr_fault_of_gt h]; rfl

theorem fetchOperand_ok {s : State} {k : Nat} (h : s.pc.toNat + k ≤ 255 ∨ s.cfg.oob = .wrap) :
    fetchOperand s k = .ok (s.memRead (BitVec.ofNat 8 (s.pc.toNat + k))) := by
  rw [fetchOperand, addr_of_le h]; rfl

theorem fetchOperand_error {s : State} {k : Nat} (hp : s.cfg.oob = .fault) (h : 256 ≤ s.pc.toNat + k) :
    fetchOperand s k = .error (.outOfRange .operandAddr (s.pc.toNat + k : Nat)) := by
  rw [fetchOperand, hp, addr_fault_of_gt h]; rfl

theorem fetchOperands_one (s : State) : fetchOperands s 1 = (fetchOperand s 1).map fun opa => (opa, 0) := rfl

theorem fetchOperands_two (s : State) :
    fetchOperands s 2 = (fetchOperand s 1).bind fun opa => (fetchOperand s 2).map fun opb => (opa, opb) := rfl

theorem oob_cases (s : State) : s.cfg.oob = .fault ∨ s.cfg.oob = .wrap := by cases s.cfg.oob <;> simp

/-- What a fetch that succeeds has read: a recognised opcode byte in range, and all its operand bytes in range. -/
theorem fetch_ok {s : State} {i : Instr} (h : fetch s = .ok i) :
    s.cfg.opcodeMap.lookup (s.memRead (BitVec.ofNat 8 s.pc.toNat)) = some i.op ∧
      i.op ≠ .int ∧ i.op ≠ .iret ∧ (s.pc.toNat + i.op.operandCount ≤ 255 ∨ s.cfg.oob = .wrap) := by
  unfold fetch at h
  split at h
  · cases h
  rename_i ir hir
  split at h
  · cases h
  rename_i op hop
  split at h
  · cases h
  rename_i hint
  split at h
  · cases h
  rename_i opa opb hops
  obtain rfl : op.instr opa opb = i := by simpa using h
  rw [Op.instr_op]
  have hpc : s.pc.toNat ≤ 255 ∨ s.cfg.oob = .wrap := by
    rcases oob_cases s with hp | hp
    · refine .inl (Nat.le_of_not_lt fun hlt => ?_)
      rw [fetchOpcode_error hp hlt] at hir
      cases hir
    · exact .inr hp
  rw [fetchOpcode_ok hpc] at hir
  cases hir
  refine ⟨hop, fun h => hint (.inl h), fun h => hint (.inr h), ?_⟩
  rcases oob_cases s with hp | hp
  · refine .inl (Nat.le_of_not_lt fun hlt => ?_)
    have hN := op.operandCount_le_two
    have h255 : s.pc.toNat ≤ 255 := by simpa [hp] using hpc
    obtain h1 | h2 : op.operandCount = 1 ∨ op.operandCount = 2 := by omega
    · rw [h1, fetchOperands_one, fetchOperand_error hp (by omega)] at hops
      cases hops
    · rw [h2, fetchOperands_two, fetchOperand_error (k := 2) hp (by omega)] at hops
      obtain ⟨_, _, hops⟩ := bind_ok_iff.1 hops
      cases hops
  · exact .inr hp

/-- The bytes at the pc are what the opcode fetch and the operand fetches read. -/
theorem codeBytes_cons {s : State} {ir : Byte} {bytes : List Byte} (h : codeBytes s = ir :: bytes) :
    fetchOpcode s = .ok ir ∧ (∀ opa rest, bytes = opa :: rest → fetchOperand s 1 = .ok opa) ∧
      ∀ opa opb rest, bytes = opa :: opb :: rest → fetchOperand s 2 = .ok opb := by
  unfold codeBytes at h
  split at h <;> simp_all
  all_goals
    obtain ⟨rfl, rfl⟩ := h
    simp_all

/-! ### Placing code and loading an image keep memory canonical -/

theorem writeCode_wf {s : State} (h : s.mem.wf = true) (k : Nat) (bytes : List Byte) :
    (writeCode s k bytes).mem.wf = true := by
  induction bytes generalizing s k with
  | nil => exact h
  | cons v bytes ih =>
    refine ih ?_ (k + 1)
    unfold writeCodeByte
    split
    · exact memWrite_wf h _ v
    · exact h

theorem withFetchWord_wf {s : State} (h : s.mem.wf = true) (nbits w : Nat) :
    (s.withFetchWord nbits w).mem.wf = true := by
  have := writeCode_wf h 0 (tableBytes nbits w)
  unfold State.withFetchWord
  generalize tableBytes nbits w = bytes at this ⊢
  exact this

theorem Memory.wf_load {m : Memory} (hm : m.wf = true) (k : Nat) (bytes : List Byte)
    (hk : k + bytes.length ≤ 256) : (m.load k bytes).wf = true := by
  induction bytes generalizing m k with
  | nil => exact hm
  | cons v bytes ih =>
    simp only [List.length_cons] at hk
    exact ih (Memory.wf_write hm (by omega) v) (k + 1) (by omega)

end Machine

end Sys2Proof
end

