-- ==== Sys2Proof/Laws/Handlers.lean ====
section
/-! SUPPORT. What each handler can do: when it answers a state, and which. -/

namespace Sys2Proof.Machine

variable {s u : State} {n a b : RegOperand} {imm : Byte}

/-- The register operands of a form are resolved (R85). -/
def Resolves (s : State) (ns : List RegOperand) : Prop := s.cfg.oob = .wrap ∨ ∀ n ∈ ns, n.toNat ≤ 7

theorem resolves_one : Resolves s [n] ↔ s.cfg.oob = .wrap ∨ n.toNat ≤ 7 := by simp [Resolves]

theorem resolves_two : Resolves s [a, b] ↔ s.cfg.oob = .wrap ∨ a.toNat ≤ 7 ∧ b.toNat ≤ 7 := by simp [Resolves]

theorem withReg_ok {h : RegIndex → Checked State} :
    withReg s n h = .ok u ↔ Resolves s [n] ∧ h (namedReg n) = .ok u := by
  rw [withReg_ok_iff, resolves_one]

theorem withRegs_ok {h : RegIndex → RegIndex → Checked State} :
    withRegs s a b h = .ok u ↔ Resolves s [a, b] ∧ h (namedReg a) (namedReg b) = .ok u := by
  rw [withRegs_ok_iff, resolves_two]

/-! ### The shared forms -/

theorem aluTwo_ok {f : Byte → Byte → Byte} : aluTwo f a b s = .ok u ↔
    Resolves s [a, b] ∧ u = s.setReg (namedReg a) (f (s.reg (namedReg a)) (s.reg (namedReg b))) := by
  simp [aluTwo, withRegs_ok, @eq_comm State u]

theorem aluOne_ok {f : Byte → Byte} : aluOne f a s = .ok u ↔
    Resolves s [a] ∧ u = s.setReg (namedReg a) (f (s.reg (namedReg a))) := by
  simp [aluOne, withReg_ok, @eq_comm State u]

theorem aluDivide_ok {f : Byte → Byte → Byte} : aluDivide f a b s = .ok u ↔
    Resolves s [a, b] ∧ s.reg (namedReg b) ≠ 0 ∧
      u = s.setReg (namedReg a) (f (s.reg (namedReg a)) (s.reg (namedReg b))) := by
  rw [aluDivide, withRegs_ok]
  split <;> simp_all [@eq_comm State u]

theorem jumpIf_ok {cond : Byte → Bool} : jumpIf cond n s = .ok u ↔
    Resolves s [n] ∧ u = if cond s.fl then s.jumpTo (s.reg (namedReg n))
      else s.setPc (nextPc s.cfg.oob (s.pc.toNat + 2)) := by
  simp [jumpIf, withReg_ok, @eq_comm State u]

/-! ### The other handlers -/

theorem handlePrn_ok : handlePrn n s = .ok u ↔ Resolves s [n] ∧ u = s.emit .prn (s.reg (namedReg n)) := by
  simp [handlePrn, withReg_ok, @eq_comm State u]

theorem handlePra_ok : handlePra n s = .ok u ↔ Resolves s [n] ∧ u = s.emit .pra (s.reg (namedReg n)) := by
  simp [handlePra, withReg_ok, @eq_comm State u]

theorem handleLdi_ok : handleLdi n imm s = .ok u ↔ Resolves s [n] ∧ u = s.setReg (namedReg n) imm := by
  simp [handleLdi, withReg_ok, @eq_comm State u]

theorem handleLd_ok : handleLd a b s = .ok u ↔
    Resolves s [a, b] ∧ u = s.setReg (namedReg a) (s.memRead (s.reg (namedReg b))) := by
  simp [handleLd, withRegs_ok, @eq_comm State u]

theorem handleSt_ok : handleSt a b s = .ok u ↔
    Resolves s [a, b] ∧ u = s.memWrite (stAddress s (namedReg a)) (s.reg (namedReg b)) := by
  simp [handleSt, withRegs_ok, @eq_comm State u]

theorem handlePush_ok : handlePush n s = .ok u ↔
    Resolves s [n] ∧ ∃ sp, pushPointer s = .ok sp ∧
      u = (s.setReg spIndex sp).memWrite sp ((s.setReg spIndex sp).reg (namedReg n)) := by
  simp [handlePush, withReg_ok, bind_ok_iff, @eq_comm State u]

theorem handlePop_ok : handlePop n s = .ok u ↔
    Resolves s [n] ∧ ∃ sp, popPointer s (namedReg n) = .ok sp ∧
      u = (s.setReg (namedReg n) (s.memRead (s.reg spIndex))).setReg spIndex sp := by
  simp [handlePop, withReg_ok, bind_ok_iff, @eq_comm State u]

theorem handleCall_ok : handleCall n s = .ok u ↔
    Resolves s [n] ∧ ∃ ret, returnAddress s = .ok ret ∧ ∃ sp, pushPointer s = .ok sp ∧
      u = ((s.setReg spIndex sp).memWrite sp ret).jumpTo ((s.setReg spIndex sp).reg (namedReg n)) := by
  simp [handleCall, withReg_ok, bind_ok_iff, @eq_comm State u]

theorem handleRet_ok : handleRet s = .ok u ↔
    ∃ sp, retPointer s = .ok sp ∧ u = (s.setReg spIndex sp).jumpTo (s.memRead (s.reg spIndex)) := by
  simp [handleRet, bind_ok_iff, @eq_comm State u]

theorem handleCmp_ok : handleCmp a b s = .ok u ↔
    Resolves s [a, b] ∧ u = s.setFl (compareFlags (s.reg (namedReg a)) (s.reg (namedReg b))) := by
  simp [handleCmp, withRegs_ok, @eq_comm State u]

theorem handleJmp_ok : handleJmp n s = .ok u ↔ Resolves s [n] ∧ u = s.jumpTo (s.reg (namedReg n)) := by
  simp [handleJmp, withReg_ok, @eq_comm State u]

theorem handleNop_ok : handleNop s = .ok u ↔ u = s := by simp [handleNop, @eq_comm State u]

theorem handleHlt_ok : handleHlt s = .ok u ↔ u = s.halt := by simp [handleHlt, @eq_comm State u]

theorem handleInt_ok : ¬handleInt n s = .ok u := by simp [handleInt]

theorem handleIret_ok : ¬handleIret s = .ok u := by simp [handleIret]

/-- What a handler that answers a state has done, by the shape of its effect. -/
inductive Effect (s : State) : State → Prop where
  /-- nothing: NOP -/
  | none : Effect s s
  /-- HLT -/
  | halt : Effect s s.halt
  /-- PRN, PRA -/
  | emit (k : EventKind) (v : Byte) : Effect s (s.emit k v)
  /-- LDI, LD and the ALU -/
  | reg (r : RegIndex) (v : Byte) : Effect s (s.setReg r v)
  /-- POP -/
  | regs (r : RegIndex) (v sp : Byte) : Effect s ((s.setReg r v).setReg spIndex sp)
  /-- ST -/
  | store (a v : Byte) : Effect s (s.memWrite a v)
  /-- PUSH -/
  | push (sp v : Byte) : Effect s ((s.setReg spIndex sp).memWrite sp v)
  /-- CALL -/
  | call (sp ret target : Byte) : Effect s (((s.setReg spIndex sp).memWrite sp ret).jumpTo target)
  /-- RET -/
  | ret (sp target : Byte) : Effect s ((s.setReg spIndex sp).jumpTo target)
  /-- CMP -/
  | flags (a b : Byte) : Effect s (s.setFl (compareFlags a b))
  /-- JMP and a conditional jump that is taken -/
  | jump (target : Byte) : Effect s (s.jumpTo target)
  /-- a conditional jump that is not taken -/
  | skip : Effect s (s.setPc (nextPc s.cfg.oob (s.pc.toNat + 2)))

/-- Every handler that answers a state has had one of the effects. -/
theorem handler_effect {i : Instr} (h : handler i s = .ok u) : Effect s u := by
  cases i <;> simp only [handler] at h
  case nop => exact handleNop_ok.1 h ▸ .none
  case hlt => exact handleHlt_ok.1 h ▸ .halt
  case ldi => exact (handleLdi_ok.1 h).2 ▸ .reg _ _
  case ld => exact (handleLd_ok.1 h).2 ▸ .reg _ _
  case st => exact (handleSt_ok.1 h).2 ▸ .store _ _
  case push => obtain ⟨_, _, _, rfl⟩ := handlePush_ok.1 h; exact .push _ _
  case pop => obtain ⟨_, _, _, rfl⟩ := handlePop_ok.1 h; exact .regs _ _ _
  case prn => exact (handlePrn_ok.1 h).2 ▸ .emit _ _
  case pra => exact (handlePra_ok.1 h).2 ▸ .emit _ _
  case call => obtain ⟨_, _, _, _, _, rfl⟩ := handleCall_ok.1 h; exact .call _ _ _
  case ret => obtain ⟨_, _, rfl⟩ := handleRet_ok.1 h; exact .ret _ _
  case int => exact absurd h handleInt_ok
  case iret => exact absurd h handleIret_ok
  case jmp => exact (handleJmp_ok.1 h).2 ▸ .jump _
  case cmp => exact (handleCmp_ok.1 h).2 ▸ .flags _ _
  case jeq | jne | jgt | jlt | jle | jge =>
    rw [(jumpIf_ok.1 h).2]; split
    · exact .jump _
    · exact .skip
  case add | sub | mul | and | or | xor | shl | shr => exact (aluTwo_ok.1 h).2 ▸ .reg _ _
  case div | mod => exact (aluDivide_ok.1 h).2.2 ▸ .reg _ _
  case inc | dec | not => exact (aluOne_ok.1 h).2 ▸ .reg _ _

end Sys2Proof.Machine
end

