-- ==== Sys2Proof/Laws/Histories.lean ====
section
/-! SUPPORT. The small lemmas of the histories of writes that statements speak of. -/

namespace Sys2Proof.Machine

variable {κ : Type} [DecidableEq κ]

@[simp] theorem lastWrite_nil (k : κ) : lastWrite [] k = none := rfl

/-- The last write of a list is that of its tail, if there is one, else its first. -/
theorem lastWrite_cons (w : κ × Byte) (writes : List (κ × Byte)) (k : κ) :
    lastWrite (w :: writes) k = (lastWrite writes k).or (if w.1 = k then some w.2 else none) := by
  unfold lastWrite
  rw [List.reverse_cons, List.find?_append]
  cases List.find? (fun w => decide (w.1 = k)) writes.reverse with
  | some w' => simp
  | none => by_cases h : w.1 = k <;> simp [h]

@[simp] theorem storeAll_nil (s : State) : storeAll s [] = s := rfl

theorem storeAll_cons (s : State) (w : Byte × Byte) (writes : List (Byte × Byte)) :
    storeAll s (w :: writes) = storeAll (s.memWrite w.1 w.2) writes := rfl

/-- Writes keep the canonical form. -/
theorem storeAll_wf {s : State} (h : s.mem.wf = true) (writes : List (Byte × Byte)) :
    (storeAll s writes).mem.wf = true := by
  induction writes generalizing s with
  | nil => exact h
  | cons w writes ih => exact ih (memWrite_wf h w.1 w.2)

@[simp] theorem setRegs_nil (s : State) : setRegs s [] = s := rfl

theorem setRegs_cons (s : State) (w : RegIndex × Byte) (writes : List (RegIndex × Byte)) :
    setRegs s (w :: writes) = setRegs (s.setReg w.1 w.2) writes := rfl

end Sys2Proof.Machine
end

