-- ==== Sys2Proof/Laws/PerInstr.lean ====
section
/-! SUPPORT. Statements made of each instruction as syntax, one lemma for each constructor. -/

namespace Sys2Proof.Laws.OperandBytes

/-- An instruction has as many operand bytes as its mnemonic declares (R67), and they make the instruction again (R43). -/
def Statement (i : Instr) : Prop :=
  i.operandBytes.length = i.op.operandCount ∧
    i.op.instr (i.operandBytes[0]?.getD 0) (i.operandBytes[1]?.getD 0) = i

theorem nop : Statement .nop := ⟨rfl, rfl⟩
theorem hlt : Statement .hlt := ⟨rfl, rfl⟩
theorem ldi (n imm : Byte) : Statement (.ldi n imm) := ⟨rfl, rfl⟩
theorem ld (a b : Byte) : Statement (.ld a b) := ⟨rfl, rfl⟩
theorem st (a b : Byte) : Statement (.st a b) := ⟨rfl, rfl⟩
theorem push (n : Byte) : Statement (.push n) := ⟨rfl, rfl⟩
theorem pop (n : Byte) : Statement (.pop n) := ⟨rfl, rfl⟩
theorem prn (n : Byte) : Statement (.prn n) := ⟨rfl, rfl⟩
theorem pra (n : Byte) : Statement (.pra n) := ⟨rfl, rfl⟩
theorem call (n : Byte) : Statement (.call n) := ⟨rfl, rfl⟩
theorem ret : Statement .ret := ⟨rfl, rfl⟩
theorem int (n : Byte) : Statement (.int n) := ⟨rfl, rfl⟩
theorem iret : Statement .iret := ⟨rfl, rfl⟩
theorem jmp (n : Byte) : Statement (.jmp n) := ⟨rfl, rfl⟩
theorem jeq (n : Byte) : Statement (.jeq n) := ⟨rfl, rfl⟩
theorem jne (n : Byte) : Statement (.jne n) := ⟨rfl, rfl⟩
theorem jgt (n : Byte) : Statement (.jgt n) := ⟨rfl, rfl⟩
theorem jlt (n : Byte) : Statement (.jlt n) := ⟨rfl, rfl⟩
theorem jle (n : Byte) : Statement (.jle n) := ⟨rfl, rfl⟩
theorem jge (n : Byte) : Statement (.jge n) := ⟨rfl, rfl⟩
theorem add (a b : Byte) : Statement (.add a b) := ⟨rfl, rfl⟩
theorem sub (a b : Byte) : Statement (.sub a b) := ⟨rfl, rfl⟩
theorem mul (a b : Byte) : Statement (.mul a b) := ⟨rfl, rfl⟩
theorem div (a b : Byte) : Statement (.div a b) := ⟨rfl, rfl⟩
theorem mod (a b : Byte) : Statement (.mod a b) := ⟨rfl, rfl⟩
theorem inc (a : Byte) : Statement (.inc a) := ⟨rfl, rfl⟩
theorem dec (a : Byte) : Statement (.dec a) := ⟨rfl, rfl⟩
theorem cmp (a b : Byte) : Statement (.cmp a b) := ⟨rfl, rfl⟩
theorem and (a b : Byte) : Statement (.and a b) := ⟨rfl, rfl⟩
theorem not (a : Byte) : Statement (.not a) := ⟨rfl, rfl⟩
theorem or (a b : Byte) : Statement (.or a b) := ⟨rfl, rfl⟩
theorem xor (a b : Byte) : Statement (.xor a b) := ⟨rfl, rfl⟩
theorem shl (a b : Byte) : Statement (.shl a b) := ⟨rfl, rfl⟩
theorem shr (a b : Byte) : Statement (.shr a b) := ⟨rfl, rfl⟩

end Sys2Proof.Laws.OperandBytes
end

