-- ==== Sys2Proof/Laws/Pointers.lean ====
section
/-! SUPPORT. What the checked sums of PUSH, POP, CALL and RET answer (R111 to R114), and the FL of a comparison (R120). -/

namespace Sys2Proof.Machine

theorem ofInt_sub_one (x : Byte) : BitVec.ofInt 8 ((x.toNat : Int) - 1) = x - 1 := by
  have := x.isLt
  apply BitVec.eq_of_toNat_eq
  rw [BitVec.toNat_ofInt, BitVec.toNat_sub]
  simp
  omega

theorem ofInt_add_one (x : Byte) : BitVec.ofInt 8 ((x.toNat : Int) + 1) = x + 1 := by
  have := x.isLt
  apply BitVec.eq_of_toNat_eq
  rw [BitVec.toNat_ofInt, BitVec.toNat_add]
  simp
  omega

theorem toByte_sub_one_ok_iff {p : OobPolicy} {k : RangeKind} {x b : Byte} :
    toByte p k ((x.toNat : Int) - 1) = .ok b ↔ (x ≠ 0 ∨ p = .wrap) ∧ b = x - 1 := by
  have hx : x ≠ 0 ↔ 0 ≤ (x.toNat : Int) - 1 ∧ (x.toNat : Int) - 1 ≤ 255 := by
    have := x.isLt
    rw [← BitVec.toNat_ne_iff_ne]
    simp
    omega
  rw [toByte, inRange_ok_iff, ofInt_sub_one, hx, or_comm]

theorem toByte_add_one_ok_iff {p : OobPolicy} {k : RangeKind} {x b : Byte} :
    toByte p k ((x.toNat : Int) + 1) = .ok b ↔ (x ≠ 255 ∨ p = .wrap) ∧ b = x + 1 := by
  have hx : x ≠ 255 ↔ 0 ≤ (x.toNat : Int) + 1 ∧ (x.toNat : Int) + 1 ≤ 255 := by
    have := x.isLt
    rw [← BitVec.toNat_ne_iff_ne]
    simp
    omega
  rw [toByte, inRange_ok_iff, ofInt_add_one, hx, or_comm]

variable {s : State} {r : RegIndex} {b : Byte}

theorem pushPointer_ok_iff :
    pushPointer s = .ok b ↔ (s.reg spIndex ≠ 0 ∨ s.cfg.oob = .wrap) ∧ b = s.reg spIndex - 1 :=
  toByte_sub_one_ok_iff

theorem popPointer_ok_iff :
    popPointer s r = .ok b ↔
      ((if r = spIndex then s.memRead (s.reg spIndex) else s.reg spIndex) ≠ 255 ∨ s.cfg.oob = .wrap) ∧
        b = (if r = spIndex then s.memRead (s.reg spIndex) else s.reg spIndex) + 1 :=
  toByte_add_one_ok_iff

theorem retPointer_ok_iff :
    retPointer s = .ok b ↔ (s.reg spIndex ≠ 255 ∨ s.cfg.oob = .wrap) ∧ b = s.reg spIndex + 1 :=
  toByte_add_one_ok_iff

theorem returnAddress_ok_iff :
    returnAddress s = .ok b ↔
      (s.pc.toNat + 2 ≤ 255 ∨ s.cfg.oob = .wrap) ∧ b = BitVec.ofNat 8 (s.pc.toNat + 2) := by
  have e : ((s.pc.toNat : Int) + 2) = ((s.pc.toNat + 2 : Nat) : Int) := by simp
  rw [returnAddress, toByte, e, inRange_ok_iff, BitVec.ofInt_natCast, or_comm]
  constructor
  · rintro ⟨h | h, hb⟩
    · exact ⟨.inl (by omega), hb⟩
    · exact ⟨.inr h, hb⟩
  · rintro ⟨h | h, hb⟩
    · exact ⟨.inl (by omega), hb⟩
    · exact ⟨.inr h, hb⟩

/-- Exactly one flag is set (R29, R120). -/
theorem compareFlags_eq (x y : Byte) :
    compareFlags x y = if x.toNat < y.toNat then 4#8 else if y.toNat < x.toNat then 2#8 else 1#8 := by
  unfold compareFlags
  rcases Nat.lt_trichotomy x.toNat y.toNat with h | h | h
  · simp [h, Nat.not_lt_of_lt h, Nat.ne_of_lt h]; decide
  · simp [h]; decide
  · simp [h, Nat.not_lt_of_lt h, Nat.ne_of_gt h]; decide

end Sys2Proof.Machine
end

