-- ==== Sys2Proof/Tests/Slice0.lean ====
section
/-! SUPPORT. The model's own tests.
Expected results are those of spec/95_test_vectors.md, whose row is named in each comment, or the encodings of R64.
The witnesses show, for each statement, states and operands that meet its hypotheses, each clause at a boundary. -/

namespace Sys2Proof.Tests

open Sys2Proof.Machine

/-! ### Building small states -/

/-- The reset state under `OOB_POLICY = wrap`. -/
def resetWrap : State := State.resetWith { Config.standard with oob := .wrap }

/-- `s` with the pc at `pc` and `bytes` in the cells from there on. -/
def placed (s : State) (pc : PcWord) (bytes : List Byte) : State := writeCode (s.setPc pc) 0 bytes

/-- The reset state with code at `pc`. -/
def code (pc : PcWord) (bytes : List Byte) : State := placed State.reset pc bytes

/-- The next state of an outcome, if it has one. -/
def nextOf : Host.Outcome State Fault Refusal → Option State
  | .next t => some t
  | .fault _ => none
  | .refused _ => none

/-- The next state of a step, if it has one. -/
def stepped (s : State) : Option State := nextOf (step s)

theorem next_of_nextOf {o : Host.Outcome State Fault Refusal} {t : State} (h : nextOf o = some t) : o = .next t := by
  cases o <;> simp_all [nextOf]

/-- The fault record and status the spec's tables write `FAULTED(cause, addr, opcode, detail)`. -/
def faulted (s : State) (addr : PcWord) (opcode : Option Byte) (c : Cause) : State :=
  { s with status := .faulted, fault := some ⟨c, addr, opcode⟩ }

/-- The reset state with `x[0]` and `x[1]` set. -/
def regs01 (x y : Byte) : State := (State.reset.setReg 0 x).setReg 1 y

/-! ### Reset -/

theorem test_reset_mem_wf : State.reset.mem.wf = true := by decide

theorem test_reset_inv : State.reset.Inv := by
  refine ⟨by decide, .inl rfl, rfl, by decide, by decide, ?_⟩
  intro f h
  cases h

/-! ### WellFormed refuses a register operand byte above 7 in each place -/

theorem test_wellFormed_R : Instr.wellFormed (.push 8) = false ∧ Instr.wellFormed (.push 7) = true := by decide
theorem test_wellFormed_RR_first : Instr.wellFormed (.add 8 0) = false ∧ Instr.wellFormed (.add 7 0) = true :=
  by decide
theorem test_wellFormed_RR_second : Instr.wellFormed (.st 0 255) = false ∧ Instr.wellFormed (.st 0 7) = true :=
  by decide
theorem test_wellFormed_RI : Instr.wellFormed (.ldi 16 0) = false ∧ Instr.wellFormed (.ldi 7 255) = true := by decide

/-! ### Decoding: one word for each constructor, written out from its row of R64 -/

theorem test_decode_nop : decodeTableWord 8 0b00000000 = some .nop := by decide
theorem test_decode_hlt : decodeTableWord 8 0b00000001 = some .hlt := by decide
theorem test_decode_ldi : decodeTableWord 24 0b11111110_00000011_10000010 = some (.ldi 3 254) := by decide
theorem test_decode_ld : decodeTableWord 24 0b00000001_00000110_10000011 = some (.ld 6 1) := by decide
theorem test_decode_st : decodeTableWord 24 0b00000001_00000110_10000100 = some (.st 6 1) := by decide
theorem test_decode_push : decodeTableWord 16 0b00000101_01000101 = some (.push 5) := by decide
theorem test_decode_pop : decodeTableWord 16 0b00000101_01000110 = some (.pop 5) := by decide
theorem test_decode_prn : decodeTableWord 16 0b00000101_01000111 = some (.prn 5) := by decide
theorem test_decode_pra : decodeTableWord 16 0b00000101_01001000 = some (.pra 5) := by decide
theorem test_decode_call : decodeTableWord 16 0b00000101_01010000 = some (.call 5) := by decide
theorem test_decode_ret : decodeTableWord 8 0b00010001 = some .ret := by decide
theorem test_decode_int : decodeTableWord 16 0b00000101_01010010 = some (.int 5) := by decide
theorem test_decode_iret : decodeTableWord 8 0b00010011 = some .iret := by decide
theorem test_decode_jmp : decodeTableWord 16 0b00000101_01010100 = some (.jmp 5) := by decide
theorem test_decode_jeq : decodeTableWord 16 0b00000101_01010101 = some (.jeq 5) := by decide
theorem test_decode_jne : decodeTableWord 16 0b00000101_01010110 = some (.jne 5) := by decide
theorem test_decode_jgt : decodeTableWord 16 0b00000101_01010111 = some (.jgt 5) := by decide
theorem test_decode_jlt : decodeTableWord 16 0b00000101_01011000 = some (.jlt 5) := by decide
theorem test_decode_jle : decodeTableWord 16 0b00000101_01011001 = some (.jle 5) := by decide
theorem test_decode_jge : decodeTableWord 16 0b00000101_01011010 = some (.jge 5) := by decide
theorem test_decode_add : decodeTableWord 24 0b00000001_00000110_10100000 = some (.add 6 1) := by decide
theorem test_decode_sub : decodeTableWord 24 0b00000001_00000110_10100001 = some (.sub 6 1) := by decide
theorem test_decode_mul : decodeTableWord 24 0b00000001_00000110_10100010 = some (.mul 6 1) := by decide
theorem test_decode_div : decodeTableWord 24 0b00000001_00000110_10100011 = some (.div 6 1) := by decide
theorem test_decode_mod : decodeTableWord 24 0b00000001_00000110_10100100 = some (.mod 6 1) := by decide
theorem test_decode_inc : decodeTableWord 16 0b00000101_01100101 = some (.inc 5) := by decide
theorem test_decode_dec : decodeTableWord 16 0b00000101_01100110 = some (.dec 5) := by decide
theorem test_decode_cmp : decodeTableWord 24 0b00000001_00000110_10100111 = some (.cmp 6 1) := by decide
theorem test_decode_and : decodeTableWord 24 0b00000001_00000110_10101000 = some (.and 6 1) := by decide
theorem test_decode_not : decodeTableWord 16 0b00000101_01101001 = some (.not 5) := by decide
theorem test_decode_or : decodeTableWord 24 0b00000001_00000110_10101010 = some (.or 6 1) := by decide
theorem test_decode_xor : decodeTableWord 24 0b00000001_00000110_10101011 = some (.xor 6 1) := by decide
theorem test_decode_shl : decodeTableWord 24 0b00000001_00000110_10101100 = some (.shl 6 1) := by decide
theorem test_decode_shr : decodeTableWord 24 0b00000001_00000110_10101101 = some (.shr 6 1) := by decide

/-- Bytes of R68 that are no opcode. -/
theorem test_decode_illegal : decodeTableWord 8 0xFF = none ∧ decodeTableWord 24 0xA9 = none ∧
    decodeTableWord 8 0x02 = none ∧ decodeTableWord 8 0x10 = none := by decide

/-! ### One step of each instruction -/

/-- S1 -/
theorem test_nop :
    stepped (placed (State.reset) 10 [0x00]) =
      some ((placed (State.reset) 10 [0x00]).setPc 11) := by decide

/-- S3 -/
theorem test_nop_last_cell_wrap :
    stepped (placed (resetWrap) 255 [0x00]) =
      some ((placed (resetWrap) 255 [0x00]).setPc 0) := by decide

/-- S5 -/
theorem test_hlt :
    stepped (code 255 [0x01]) =
      some ({ code 255 [0x01] with status := .halted, pc := 256 }) := by decide

/-- S6 -/
theorem test_prn :
    stepped (placed (State.reset.setReg 0 8) 3 [0x47, 0x00]) =
      some ((placed (State.reset.setReg 0 8) 3 [0x47, 0x00]).emit .prn 8 |>.setPc 5) := by decide

/-- S20 -/
theorem test_prn_operand_wraps :
    stepped (placed ((resetWrap.setReg 2 99).memWrite 0 2) 255 [0x47]) =
      some ((placed ((resetWrap.setReg 2 99).memWrite 0 2) 255 [0x47]).emit .prn 99 |>.setPc 1) := by decide

/-- S12 -/
theorem test_pra :
    stepped (placed (State.reset.setReg 1 200) 0 [0x48, 0x01]) =
      some ((placed (State.reset.setReg 1 200) 0 [0x48, 0x01]).emit .pra 200 |>.setPc 2) := by decide

/-- S15 -/
theorem test_int_last_cell :
    stepped (placed (State.reset) 255 [0x52]) =
      some (faulted (placed (State.reset) 255 [0x52]) 255 (some 0x52) .illegalInstruction) := by decide

/-- S14 -/
theorem test_iret :
    stepped (placed (State.reset) 0 [0x13]) =
      some (faulted (placed (State.reset) 0 [0x13]) 0 (some 0x13) .illegalInstruction) := by decide

/-- T3 -/
theorem test_ldi :
    stepped (placed (State.reset) 20 [0x82, 0x05, 0xFF]) =
      some ((placed (State.reset) 20 [0x82, 0x05, 0xFF]).setReg 5 255 |>.setPc 23) := by decide

/-- T5 -/
theorem test_ldi_second_operand_address :
    stepped (placed (State.reset) 254 [0x82, 0x00]) =
      some (faulted (placed (State.reset) 254 [0x82, 0x00]) 254 (some 0x82) (.outOfRange .operandAddr 256)) :=
        by decide

/-- T8 -/
theorem test_ld_same_register :
    stepped (placed ((State.reset.setReg 1 200).memWrite 200 7) 0 [0x83, 0x01, 0x01]) =
      some ((placed ((State.reset.setReg 1 200).memWrite 200 7) 0 [0x83, 0x01, 0x01]).setReg 1 7 |>.setPc 3) :=
        by decide

/-- T17 -/
theorem test_ld_first_operand :
    stepped (placed (State.reset) 0 [0x83, 0x0A, 0x0B]) =
      some (faulted (placed (State.reset) 0 [0x83, 0x0A, 0x0B]) 0 (some 0x83) (.outOfRange .regIndex 10)) := by decide

/-- T11 -/
theorem test_st :
    stepped (placed ((State.reset.setReg 2 128).setReg 0 14) 0 [0x84, 0x02, 0x00]) =
      some ((placed ((State.reset.setReg 2 128).setReg 0 14) 0 [0x84, 0x02, 0x00]).memWrite 128 14 |>.setPc 3) :=
        by decide

/-- T13 -/
theorem test_st_own_opcode :
    stepped (placed ((State.reset.setReg 0 10).setReg 1 1) 10 [0x84, 0x00, 0x01]) =
      some ((placed ((State.reset.setReg 0 10).setReg 1 1) 10 [0x84, 0x00, 0x01]).memWrite 10 1 |>.setPc 13) :=
        by decide

/-- K2 -/
theorem test_push :
    stepped (placed (State.reset) 0 [0x45, 0x07]) =
      some ((placed (State.reset) 0 [0x45, 0x07]).setReg 7 243 |>.memWrite 243 243 |>.setPc 2) := by decide +kernel

/-- K4 -/
theorem test_push_wrap :
    stepped (placed ((resetWrap.setReg 7 0).setReg 0 42) 10 [0x45, 0x00]) =
      some ((placed ((resetWrap.setReg 7 0).setReg 0 42) 10 [0x45, 0x00]).setReg 7 255 |>.memWrite 255 42
        |>.setPc 12) := by decide +kernel

/-- K8 -/
theorem test_pop_r7 :
    stepped (placed ((State.reset.setReg 7 100).memWrite 100 17) 0 [0x46, 0x07]) =
      some ((placed ((State.reset.setReg 7 100).memWrite 100 17) 0 [0x46, 0x07]).setReg 7 18 |>.setPc 2) :=
        by decide +kernel

/-- K9 -/
theorem test_pop_fault :
    stepped (placed ((State.reset.setReg 7 255).memWrite 255 9) 0 [0x46, 0x00]) =
      some (faulted (placed ((State.reset.setReg 7 255).memWrite 255 9) 0 [0x46,
        0x00]) 0 (some 0x46) (.outOfRange .stackPointer 256)) := by decide

/-- K14 -/
theorem test_call_r7 :
    stepped (placed (State.reset) 6 [0x50, 0x07]) =
      some ((placed (State.reset) 6 [0x50, 0x07]).setReg 7 243 |>.memWrite 243 8 |>.setPc 243) := by decide +kernel

/-- K16 -/
theorem test_call_wrap :
    stepped (placed (resetWrap.setReg 1 20) 254 [0x50, 0x01]) =
      some ((placed (resetWrap.setReg 1 20) 254 [0x50, 0x01]).setReg 7 243 |>.setPc 20) := by decide +kernel

/-- K19 -/
theorem test_ret :
    stepped (placed ((State.reset.setReg 7 243).memWrite 243 8) 27 [0x11]) =
      some ((placed ((State.reset.setReg 7 243).memWrite 243 8) 27 [0x11]).setReg 7 244 |>.setPc 8) := by decide

/-- K20 -/
theorem test_ret_fault :
    stepped (placed ((State.reset.setReg 7 255).memWrite 255 8) 27 [0x11]) =
      some (faulted (placed ((State.reset.setReg 7 255).memWrite 255 8) 27 [0x11]) 27 (some 0x11) (.outOfRange .stackPointer 256)) := by decide

/-- J4 -/
theorem test_cmp_unsigned :
    stepped (placed ((State.reset.setReg 1 0).setReg 2 255) 0 [0xA7, 0x01, 0x02]) =
      some ((placed ((State.reset.setReg 1 0).setReg 2 255) 0 [0xA7, 0x01, 0x02]).setFl 0b100 |>.setPc 3) := by decide

/-- J7 -/
theorem test_cmp_clears :
    stepped (placed (((State.reset.setReg 1 9).setReg 2 3).setFl 0b001) 0 [0xA7, 0x01, 0x02]) =
      some ((placed (((State.reset.setReg 1 9).setReg 2 3).setFl 0b001) 0 [0xA7, 0x01, 0x02]).setFl 0b010
        |>.setPc 3) := by decide

/-- J10 -/
theorem test_jmp :
    stepped (placed (State.reset.setReg 3 255) 20 [0x54, 0x03]) =
      some ((placed (State.reset.setReg 3 255) 20 [0x54, 0x03]).setPc 255) := by decide

/-- J11 -/
theorem test_jeq_taken :
    stepped (placed ((State.reset.setReg 3 40).setFl 0b001) 20 [0x55, 0x03]) =
      some ((placed ((State.reset.setReg 3 40).setFl 0b001) 20 [0x55, 0x03]).setPc 40) := by decide

/-- J30 -/
theorem test_jeq_not_taken_checks_operand :
    stepped (placed (State.reset.setFl 0b100) 20 [0x55, 0x08]) =
      some (faulted (placed (State.reset.setFl 0b100) 20 [0x55,
        0x08]) 20 (some 0x55) (.outOfRange .regIndex 8)) := by decide

/-- J15 -/
theorem test_jne_no_cmp_yet :
    stepped (placed ((State.reset.setReg 3 12).setFl 0b000) 20 [0x56, 0x03]) =
      some ((placed ((State.reset.setReg 3 12).setFl 0b000) 20 [0x56, 0x03]).setPc 12) := by decide

/-- J14 -/
theorem test_jne_not_taken :
    stepped (placed ((State.reset.setReg 3 12).setFl 0b001) 20 [0x56, 0x03]) =
      some ((placed ((State.reset.setReg 3 12).setFl 0b001) 20 [0x56, 0x03]).setPc 22) := by decide

/-- J16 -/
theorem test_jgt_taken :
    stepped (placed ((State.reset.setReg 3 12).setFl 0b010) 20 [0x57, 0x03]) =
      some ((placed ((State.reset.setReg 3 12).setFl 0b010) 20 [0x57, 0x03]).setPc 12) := by decide

/-- J17 -/
theorem test_jgt_not_taken :
    stepped (placed ((State.reset.setReg 3 12).setFl 0b001) 20 [0x57, 0x03]) =
      some ((placed ((State.reset.setReg 3 12).setFl 0b001) 20 [0x57, 0x03]).setPc 22) := by decide

/-- J18 -/
theorem test_jlt_taken :
    stepped (placed ((State.reset.setReg 3 12).setFl 0b100) 20 [0x58, 0x03]) =
      some ((placed ((State.reset.setReg 3 12).setFl 0b100) 20 [0x58, 0x03]).setPc 12) := by decide

/-- J19 -/
theorem test_jlt_not_taken :
    stepped (placed ((State.reset.setReg 3 12).setFl 0b010) 20 [0x58, 0x03]) =
      some ((placed ((State.reset.setReg 3 12).setFl 0b010) 20 [0x58, 0x03]).setPc 22) := by decide

/-- J20 -/
theorem test_jge_taken :
    stepped (placed ((State.reset.setReg 3 12).setFl 0b001) 20 [0x5A, 0x03]) =
      some ((placed ((State.reset.setReg 3 12).setFl 0b001) 20 [0x5A, 0x03]).setPc 12) := by decide

/-- J23 -/
theorem test_jge_not_taken :
    stepped (placed ((State.reset.setReg 3 12).setFl 0b000) 20 [0x5A, 0x03]) =
      some ((placed ((State.reset.setReg 3 12).setFl 0b000) 20 [0x5A, 0x03]).setPc 22) := by decide

/-- J24 -/
theorem test_jle_taken :
    stepped (placed ((State.reset.setReg 3 12).setFl 0b100) 20 [0x59, 0x03]) =
      some ((placed ((State.reset.setReg 3 12).setFl 0b100) 20 [0x59, 0x03]).setPc 12) := by decide

/-- J26 -/
theorem test_jle_not_taken :
    stepped (placed ((State.reset.setReg 3 12).setFl 0b010) 20 [0x59, 0x03]) =
      some ((placed ((State.reset.setReg 3 12).setFl 0b010) 20 [0x59, 0x03]).setPc 22) := by decide

/-- A2 -/
theorem test_add :
    stepped (placed (regs01 200 100) 0 [0xA0, 0x00, 0x01]) =
      some ((placed (regs01 200 100) 0 [0xA0, 0x00, 0x01]).setReg 0 44 |>.setPc 3) := by decide

/-- A68 -/
theorem test_add_second_operand :
    stepped (placed ((resetWrap.setReg 0 1).setReg 1 5) 0 [0xA0, 0x00, 0x09]) =
      some ((placed ((resetWrap.setReg 0 1).setReg 1 5) 0 [0xA0, 0x00, 0x09]).setReg 0 6 |>.setPc 3) := by decide

/-- A7 -/
theorem test_sub :
    stepped (placed (regs01 5 10) 0 [0xA1, 0x00, 0x01]) =
      some ((placed (regs01 5 10) 0 [0xA1, 0x00, 0x01]).setReg 0 251 |>.setPc 3) := by decide

/-- A13 -/
theorem test_mul :
    stepped (placed (regs01 255 255) 0 [0xA2, 0x00, 0x01]) =
      some ((placed (regs01 255 255) 0 [0xA2, 0x00, 0x01]).setReg 0 1 |>.setPc 3) := by decide

/-- A17 -/
theorem test_div :
    stepped (placed (regs01 20 6) 0 [0xA3, 0x00, 0x01]) =
      some ((placed (regs01 20 6) 0 [0xA3, 0x00, 0x01]).setReg 0 3 |>.setPc 3) := by decide

/-- A22 -/
theorem test_div_zero :
    stepped (placed (regs01 5 0) 6 [0xA3, 0x00, 0x01]) =
      some (faulted (placed (regs01 5 0) 6 [0xA3, 0x00, 0x01]) 6 (some 0xA3) .divisionByZero) := by decide

/-- A32 -/
theorem test_mod :
    stepped (placed (regs01 255 16) 0 [0xA4, 0x00, 0x01]) =
      some ((placed (regs01 255 16) 0 [0xA4, 0x00, 0x01]).setReg 0 15 |>.setPc 3) := by decide

/-- A30 -/
theorem test_mod_zero :
    stepped (placed (regs01 5 0) 0 [0xA4, 0x00, 0x01]) =
      some (faulted (placed (regs01 5 0) 0 [0xA4, 0x00, 0x01]) 0 (some 0xA4) .divisionByZero) := by decide

/-- A35 -/
theorem test_inc :
    stepped (placed (State.reset.setReg 7 255) 0 [0x65, 0x07]) =
      some ((placed (State.reset.setReg 7 255) 0 [0x65, 0x07]).setReg 7 0 |>.setPc 2) := by decide

/-- A37 -/
theorem test_dec :
    stepped (placed (State.reset.setReg 1 0) 0 [0x66, 0x01]) =
      some ((placed (State.reset.setReg 1 0) 0 [0x66, 0x01]).setReg 1 255 |>.setPc 2) := by decide

/-- A39 -/
theorem test_and :
    stepped (placed (regs01 0b11001100 0b10101010) 0 [0xA8, 0x00, 0x01]) =
      some ((placed (regs01 0b11001100 0b10101010) 0 [0xA8, 0x00, 0x01]).setReg 0 136 |>.setPc 3) := by decide

/-- A42 -/
theorem test_or :
    stepped (placed (regs01 0b11001100 0b10101010) 0 [0xAA, 0x00, 0x01]) =
      some ((placed (regs01 0b11001100 0b10101010) 0 [0xAA, 0x00, 0x01]).setReg 0 238 |>.setPc 3) := by decide

/-- A44 -/
theorem test_xor :
    stepped (placed (regs01 0b11001100 0b10101010) 0 [0xAB, 0x00, 0x01]) =
      some ((placed (regs01 0b11001100 0b10101010) 0 [0xAB, 0x00, 0x01]).setReg 0 102 |>.setPc 3) := by decide

/-- A47 -/
theorem test_not :
    stepped (placed (State.reset.setReg 3 0b00001111) 0 [0x69, 0x03]) =
      some ((placed (State.reset.setReg 3 0b00001111) 0 [0x69, 0x03]).setReg 3 240 |>.setPc 2) := by decide

/-- A51 -/
theorem test_shl :
    stepped (placed (regs01 0b11000001 1) 0 [0xAC, 0x00, 0x01]) =
      some ((placed (regs01 0b11000001 1) 0 [0xAC, 0x00, 0x01]).setReg 0 130 |>.setPc 3) := by decide

/-- A54 -/
theorem test_shl_eight :
    stepped (placed (regs01 255 8) 0 [0xAC, 0x00, 0x01]) =
      some ((placed (regs01 255 8) 0 [0xAC, 0x00, 0x01]).setReg 0 0 |>.setPc 3) := by decide

/-- A58 -/
theorem test_shr :
    stepped (placed (regs01 0b10000000 1) 0 [0xAD, 0x00, 0x01]) =
      some ((placed (regs01 0b10000000 1) 0 [0xAD, 0x00, 0x01]).setReg 0 64 |>.setPc 3) := by decide

/-- A60 -/
theorem test_shr_eight :
    stepped (placed (regs01 255 8) 0 [0xAD, 0x00, 0x01]) =
      some ((placed (regs01 255 8) 0 [0xAD, 0x00, 0x01]).setReg 0 0 |>.setPc 3) := by decide

/-! ### Steps that run no instruction -/

/-- S16 -/
theorem test_illegal_last_cell :
    stepped (placed (State.reset) 255 [0xFF]) =
      some (faulted (placed (State.reset) 255 [0xFF]) 255 (some 0xFF) .illegalInstruction) := by decide

/-- S2 -/
theorem test_fetch_past_the_end :
    stepped (State.reset.setPc 256) =
      some (faulted (State.reset.setPc 256) 256 none (.outOfRange .fetchAddr 256)) := by decide

/-- S21 -/
theorem test_halted_stays :
    stepped ({ code 0 [0x47, 0x00] with status := .halted }) =
      some ({ code 0 [0x47, 0x00] with status := .halted }) := by decide

/-- The host's interface: `withFetchWord` on the reset state runs the word as the first instruction. -/
theorem test_withFetchWord :
    stepped (State.reset.withFetchWord 24 0x080082) = some (((code 0 [0x82, 0x00, 0x08]).setReg 0 8).setPc 3) :=
      by decide +kernel

/-- H6 -/
theorem test_load_twice :
    (State.reset.load [0x82, 0x00, 0x08, 0x01]).toOption.bind (fun s => (s.load [0x01]).toOption) =
      some { State.reset with mem := [(0, 0x01), (2, 0x08), (3, 0x01)] } := by decide

/-- The renderings of R90 and R91: `255` and a newline, then `H`. -/
theorem test_render : ((State.reset.emit .prn 255).emit .pra 72).console = ['2', '5', '5', '\n', 'H'] := by decide

/-! ### Witnesses: the hypotheses of each statement can be met -/

/-- The step of LDI R0, 8 at reset. -/
theorem step_ldi : step (code 0 [0x82, 0x00, 0x08]) = .next (((code 0 [0x82, 0x00, 0x08]).setReg 0 8).setPc 3) :=
  next_of_nextOf (by decide)

theorem code_ldi_inv : (code 0 [0x82, 0x00, 0x08]).Inv := by
  refine ⟨by decide, .inl rfl, rfl, by decide, by decide, ?_⟩
  intro f h
  cases h

theorem standard_wf : OpcodeMap.standard.wf = true := by decide

theorem witness_EveryStepKeepsTheInvariant :
    ∃ s t : State, s.Inv ∧ step s = .next t := ⟨_, _, code_ldi_inv, step_ldi⟩

theorem witness_ParametersAndInterruptEnableAreInert :
    ∃ s t : State, step s = .next t := ⟨_, _, step_ldi⟩

theorem witness_DecodeOfEncodeIsTheInstruction :
    ∃ m : OpcodeMap, m.wf = true := ⟨_, standard_wf⟩

theorem witness_EncodeOfDecodeIsTheBytes :
    decode OpcodeMap.standard [0x82, 0x05, 0x08, 0x01] = .ok (.ldi 5 8, [0x01]) := rfl

theorem witness_WholeOpcodeByteIsMatched :
    OpcodeMap.standard.wf = true ∧ OpcodeMap.standard.lookup 0xAD = some .shr ∧
      OpcodeMap.standard.lookup 0xFF = none := by decide

theorem witness_AdvanceIsOnePlusDeclaredOperandCount :
    State.reset.cfg.opcodeMap.wf = true ∧ State.reset.status ≠ .faulted ∧
      Op.ldi.setsPc = false ∧ exec (.ldi 0 8) State.reset = .next ((State.reset.setReg 0 8).setPc 3) ∧
      Op.jeq.isConditionalJump = true ∧
      exec (.jeq 3) ((State.reset.setReg 3 255).setFl 0b001) =
        .next ((((State.reset.setReg 3 255).setFl 0b001)).setPc 255) ∧
      exec (.jeq 3) ((State.reset.setReg 3 255).setFl 0b100) =
        .next ((((State.reset.setReg 3 255).setFl 0b100)).setPc 2) := ⟨by decide, by decide, rfl, rfl, rfl, rfl, rfl⟩

theorem witness_AutoAdvanceFollowsTheDispatcher :
    State.reset.status ≠ .faulted ∧
      Op.nop.setsPc = false ∧ exec .nop (State.reset.setPc 255) = .next (State.reset.setPc 256) ∧
      Op.jeq.isConditionalJump = true ∧ jumpTaken (.jeq 3) 0b100 = false ∧ jumpTaken (.jeq 3) 0b001 = true ∧
      exec (.jeq 3) ((State.reset.setReg 3 255).setFl 0b001) =
        .next ((((State.reset.setReg 3 255).setFl 0b001)).setPc 255) ∧
      exec (.jeq 3) ((State.reset.setReg 3 255).setFl 0b100) =
        .next ((((State.reset.setReg 3 255).setFl 0b100)).setPc 2) ∧
      exec (.jmp 3) (State.reset.setReg 3 255) = .next ((State.reset.setReg 3 255).setPc 255) ∧
      exec (.call 3) (State.reset.setReg 3 255) =
        .next ((((State.reset.setReg 3 255).setReg 7 243).memWrite 243 2).setPc 255) ∧
      exec .ret State.reset = .next ((State.reset.setReg 7 245).setPc 0) :=
        ⟨by decide, rfl, rfl, rfl, rfl, rfl, rfl, rfl, rfl, next_of_nextOf (by decide +kernel),
          next_of_nextOf (by decide +kernel)⟩

theorem witness_StepPerformsTheDecodedInstruction :
    (code 253 [0x82, 0x07, 0xFF]).status = .running ∧
      decode OpcodeMap.standard (codeBytes (code 253 [0x82, 0x07, 0xFF])) = .ok (.ldi 7 255, []) ∧
      (code 253 [0x82, 0x07, 0xFF]).pc.toNat ≤ 253 ∧ (resetWrap.setPc 255).cfg.oob = .wrap ∧
      (State.reset.setPc 254).cfg.oob = .fault ∧ (State.reset.setPc 254).pc = 254 ∧
      (State.reset.setPc 255).pc = 255 := ⟨rfl, rfl, by decide, rfl, rfl, rfl, rfl⟩

theorem witness_FetchRaisesTheFirstFault :
    State.reset.status = .running ∧ State.reset.cfg.oob = .fault ∧
      256 ≤ (State.reset.setPc 256).pc.toNat ∧ (State.reset.setPc 255).pc.toNat ≤ 255 ∧
      (code 255 [0xFF]).memRead 255 = 0xFF ∧ OpcodeMap.standard.lookup 0xFF = none ∧
      (code 255 [0x52]).memRead 255 = 0x52 ∧ OpcodeMap.standard.lookup 0x52 = some .int ∧
      (code 255 [0x13]).memRead 255 = 0x13 ∧ OpcodeMap.standard.lookup 0x13 = some .iret ∧
      (code 255 [0x47]).memRead 255 = 0x47 ∧ OpcodeMap.standard.lookup 0x47 = some .prn ∧ 1 ≤ Op.prn.operandCount ∧
      (code 254 [0x82]).memRead 254 = 0x82 ∧ OpcodeMap.standard.lookup 0x82 = some .ldi ∧
      Op.ldi.operandCount = 2 := by decide

theorem witness_RegisterOperandAboveSevenRaises :
    State.reset.cfg.oob = .fault ∧ (Instr.add 7 8).op ≠ .int ∧
      (Instr.add 7 8).regOperands.find? (fun m => !m.wellFormed) = some 8 ∧
      (Instr.ld 10 11).regOperands.find? (fun m => !m.wellFormed) = some 10 ∧
      (Instr.jeq 255).regOperands.find? (fun m => !m.wellFormed) = some 255 ∧ (7 : RegOperand).toNat ≤ 7 := by decide

theorem witness_WrapPolicyNeverRaisesOutOfRange :
    resetWrap.cfg.oob = .wrap ∧ (placed resetWrap 255 [0xFF]).status = .running ∧
      step (placed resetWrap 255 [0xFF]) =
        .next (faulted (placed resetWrap 255 [0xFF]) 255 (some 0xFF) .illegalInstruction) ∧
      exec (.div 0 1) resetWrap = .next (faulted resetWrap 0 (some 0xA3) .divisionByZero) := ⟨rfl, rfl, rfl, rfl⟩

theorem witness_FaultsArePrecise :
    (State.reset.setPc 256).status = .running ∧
      step (State.reset.setPc 256) =
        .next (faulted (State.reset.setPc 256) 256 none (.outOfRange .fetchAddr 256)) ∧
      step (code 255 [0xFF]) = .next (faulted (code 255 [0xFF]) 255 (some 0xFF) .illegalInstruction) :=
        ⟨rfl, rfl, rfl⟩

theorem witness_RunEndsOnlyByHltOrFault :
    (code 0 [0x01]).status = .running ∧ step (code 0 [0x01]) = .next ((code 0 [0x01]).halt.setPc 1) ∧
      step (code 0 [0xFF]) = .next (faulted (code 0 [0xFF]) 0 (some 0xFF) .illegalInstruction) ∧
      State.reset.halt.status = .halted ∧ (faulted State.reset 0 none .illegalInstruction).status = .faulted :=
        ⟨rfl, rfl, rfl, rfl, rfl⟩

theorem witness_FlagsAreCmpsAndTheJumps :
    (Instr.add 0 1).op ≠ .cmp ∧ (Instr.add 0 1).op.isConditionalJump = false ∧
      exec (.add 0 1) (regs01 255 1) = .next (((regs01 255 1).setReg 0 0).setPc 3) ∧
      regIdx State.reset.cfg.oob 7 = .ok 7 ∧ regIdx State.reset.cfg.oob 0 = .ok 0 ∧
      exec (.cmp 7 0) State.reset = .next ((State.reset.setFl 0b010).setPc 3) := ⟨by decide, rfl, rfl, rfl, rfl, rfl⟩

theorem witness_RegistersReadAndWrittenAreTheTables :
    exec (.push 1) State.reset = .next (((State.reset.setReg 7 243).memWrite 243 0).setPc 2) ∧
      (Instr.div 7 7).wellFormed = true ∧ (regs01 5 0).status ≠ .faulted ∧
      (6 : RegIndex) ∉ regsWritten (.push 1) ∧ (6 : RegIndex) ∉ regsRead (.push 1) 0 ∧
      (0 : RegIndex) ∈ regsWritten (.ldi 0 8) ∧ (0 : RegIndex) ∉ regsRead (.ldi 0 8) 0 ∧
      (regs01 5 0).reg (namedReg 1) = 0 ∧
      exec (.div 0 1) (regs01 5 0) = .next (faulted (regs01 5 0) 0 (some 0xA3) .divisionByZero) ∧
      exec (.mod 0 1) (regs01 5 0) = .next (faulted (regs01 5 0) 0 (some 0xA4) .divisionByZero) :=
        ⟨rfl, by decide, by decide, by decide, by decide, by decide, by decide, rfl, rfl, rfl⟩

theorem witness_MemoryReachedIsTheTables :
    exec (.push 1) State.reset = .next (((State.reset.setReg 7 243).memWrite 243 0).setPc 2) ∧
      cellWritten (.push 1) State.reset = some 243 ∧ cellWritten (.push 1) State.reset ≠ some 244 ∧
      exec (.ld 0 1) (regs01 0 255) = .next ((regs01 0 255).setPc 3) ∧ cellRead (.ld 0 1) (regs01 0 255) = some 255 ∧
      Memory.read [(7, 1)] 255 = (regs01 0 255).memRead 255 := ⟨rfl, rfl, by decide, rfl, rfl, rfl⟩

theorem witness_OutputOnlyGrows :
    State.reset.status ≠ .faulted ∧ Op.nop ≠ .prn ∧ Op.nop ≠ .pra ∧
      exec .nop State.reset = .next (State.reset.setPc 1) ∧
      exec (.prn 7) State.reset = .next ((State.reset.emit .prn 244).setPc 2) ∧
      exec (.pra 7) State.reset = .next ((State.reset.emit .pra 244).setPc 2) ∧
      step (code 0 [0x47, 0x07]) = .next (((code 0 [0x47, 0x07]).emit .prn 244).setPc 2) ∧
      runFor 1 (code 0 [0x47, 0x07]) = .next (((code 0 [0x47, 0x07]).emit .prn 244).setPc 2) :=
        ⟨by decide, by decide, by decide, next_of_nextOf (by decide), next_of_nextOf (by decide),
          next_of_nextOf (by decide), next_of_nextOf (by decide), next_of_nextOf (by decide)⟩

theorem witness_MemoryIsOrdinaryStorage :
    State.reset.mem.wf = true ∧ (255 : Byte) ≠ 0 := by decide

theorem witness_EqualMemoriesAreEqualData :
    Memory.wf [(0, 1), (255, 2)] = true := by decide

theorem witness_LoadCopiesTheImage :
    State.reset.mem.wf = true ∧ (List.replicate 256 (1 : Byte)).length ≤ 256 ∧
      256 < (List.replicate 257 (1 : Byte)).length :=
        ⟨rfl, List.length_replicate.le, by rw [List.length_replicate]; decide⟩

theorem witness_StoreIsSeenByTheNextFetch :
    (regs01 255 1).mem.wf = true ∧ regIdx (regs01 255 1).cfg.oob 0 = .ok 0 ∧
      regIdx (regs01 255 1).cfg.oob 1 = .ok 1 ∧ regIdx resetWrap.cfg.oob 255 = .ok 7 ∧
      pushPointer (State.reset.setReg 7 1) = .ok 0 ∧ pushPointer (resetWrap.setReg 7 0) = .ok 255 ∧
      returnAddress (State.reset.setPc 253) = .ok 255 ∧ returnAddress (resetWrap.setPc 254) = .ok 0 ∧
      (State.reset.setPc 255).pc.toNat = (255 : Byte).toNat ∧
      (State.reset.setPc 253).pc.toNat + 2 = (255 : Byte).toNat ∧
      (resetWrap.setPc 255).cfg.oob = .wrap ∧ ((resetWrap.setPc 255).pc.toNat + 1) % 256 = (0 : Byte).toNat :=
        by decide

theorem witness_ReadsReturnTheLastValueWritten :
    State.reset.mem.wf = true ∧ State.reset.load [0x01] = .ok { State.reset with mem := [(0, 0x01)] } ∧
      State.reset.reg 7 ≠ 0 ∧ (State.reset.setPc 255).pc.toNat = (255 : Byte).toNat ∧
      (State.reset.setPc 254).pc.toNat + 1 = (255 : Byte).toNat ∧
      exec (.st 0 1) (regs01 255 1) = .next (((regs01 255 1).memWrite 255 1).setPc 3) ∧
      exec (.ld 0 1) (regs01 0 255) = .next ((regs01 0 255).setPc 3) ∧ (regs01 0 255).status ≠ .faulted ∧
      exec (.pop 2) State.reset = .next ((State.reset.setReg 7 245).setPc 2) ∧ namedReg 2 ≠ 7 ∧
      exec .ret State.reset = .next ((State.reset.setReg 7 245).setPc 0) :=
        ⟨rfl, rfl, by decide, by decide, by decide, next_of_nextOf (by decide), next_of_nextOf (by decide),
          by decide, next_of_nextOf (by decide +kernel), by decide, next_of_nextOf (by decide +kernel)⟩

theorem witness_RegistersAreOrdinary :
    regIdx State.reset.cfg.oob 0 = .ok 0 ∧ regIdx State.reset.cfg.oob 7 = .ok 7 ∧
      regIdx resetWrap.cfg.oob 255 = .ok 7 := ⟨rfl, rfl, rfl⟩

theorem witness_BytesDecodeAlikeInEveryState :
    OpcodeMap.standard.wf = true ∧
      decode OpcodeMap.standard [0x45, 0x07, 0x09] = .ok (.push 7, [0x09]) ∧
      decode OpcodeMap.standard [0x45, 0x01] = .ok (.push 1, []) ∧
      (code 0 [0x45, 0x07]).status = .running ∧ (placed resetWrap 5 [0x45, 0x07]).status = .running ∧
      (placed resetWrap 5 [0x45, 0x07]).cfg.opcodeMap = (code 0 [0x45, 0x07]).cfg.opcodeMap ∧
      codeBytes (placed resetWrap 5 [0x45, 0x07]) = codeBytes (code 0 [0x45, 0x07]) ∧
      decode OpcodeMap.standard (codeBytes (code 0 [0x45, 0x07])) = .ok (.push 7, [0x00]) ∧
      regIdx State.reset.cfg.oob 3 = .ok 3 ∧
      exec (.jmp 3) ((code 0 [0x82, 0x01, 0xFF]).setReg 3 1) =
        .next (((code 0 [0x82, 0x01, 0xFF]).setReg 3 1).setPc 1) ∧
      fetch (((code 0 [0x82, 0x01, 0xFF]).setReg 3 1).setPc 1) = .ok .hlt ∧
      ((code 0 [0x82, 0x01, 0xFF]).setReg 3 2).memRead 2 = 0xFF ∧ OpcodeMap.standard.lookup 0xFF = none :=
        ⟨by decide, rfl, rfl, rfl, rfl, rfl, by decide, rfl, rfl, next_of_nextOf (by decide), rfl, by decide,
          by decide⟩

theorem witness_IntAndIretRaiseIllegalInstruction :
    (code 255 [0x52]).status = .running ∧ (code 255 [0x52]).cfg.opcodeMap.wf = true ∧
      (code 255 [0x52]).pc.toNat ≤ 255 ∧
      (code 255 [0x52]).memRead (BitVec.ofNat 8 (code 255 [0x52]).pc.toNat) = (code 255 [0x52]).cfg.opcodeMap.int ∧
      (code 255 [0x13]).memRead (BitVec.ofNat 8 (code 255 [0x13]).pc.toNat) =
        (code 255 [0x13]).cfg.opcodeMap.iret := by decide

theorem witness_PrintedFormsAreNumeralAndCharacter :
    (127 : Byte).toNat < 128 ∧
      (decimal 0).head? = some '0'  := by decide

theorem witness_PrintsAppendTheRegister :
    regIdx State.reset.cfg.oob 7 = .ok 7 ∧ regIdx resetWrap.cfg.oob 255 = .ok 7 := ⟨rfl, rfl⟩

theorem witness_LdiLoadsTheImmediate :
    regIdx State.reset.cfg.oob 7 = .ok 7 ∧ regIdx resetWrap.cfg.oob 255 = .ok 7 := ⟨rfl, rfl⟩

theorem witness_JmpGoesToTheRegister :
    regIdx State.reset.cfg.oob 7 = .ok 7 ∧ regIdx resetWrap.cfg.oob 255 = .ok 7 := ⟨rfl, rfl⟩

theorem witness_IncDecNotChangeTheRegister :
    regIdx State.reset.cfg.oob 7 = .ok 7 ∧ regIdx resetWrap.cfg.oob 255 = .ok 7 := ⟨rfl, rfl⟩

theorem witness_LdLoadsTheAddressedCell :
    regIdx State.reset.cfg.oob 7 = .ok 7 ∧ regIdx State.reset.cfg.oob 0 = .ok 0 ∧
      regIdx resetWrap.cfg.oob 255 = .ok 7 ∧ regIdx resetWrap.cfg.oob 8 = .ok 0 := ⟨rfl, rfl, rfl, rfl⟩

theorem witness_AddSubMulWrapModulo256 :
    regIdx State.reset.cfg.oob 7 = .ok 7 ∧ regIdx State.reset.cfg.oob 0 = .ok 0 ∧
      regIdx resetWrap.cfg.oob 255 = .ok 7 ∧ regIdx resetWrap.cfg.oob 8 = .ok 0 := ⟨rfl, rfl, rfl, rfl⟩

theorem witness_LogicWorksBitByBit :
    regIdx State.reset.cfg.oob 7 = .ok 7 ∧ regIdx State.reset.cfg.oob 0 = .ok 0 ∧
      regIdx resetWrap.cfg.oob 255 = .ok 7 ∧ regIdx resetWrap.cfg.oob 8 = .ok 0 := ⟨rfl, rfl, rfl, rfl⟩

theorem witness_StStoresToTheAddressedCell :
    State.reset.mem.wf = true ∧ regIdx State.reset.cfg.oob 7 = .ok 7 ∧ regIdx State.reset.cfg.oob 0 = .ok 0 ∧
      regIdx resetWrap.cfg.oob 255 = .ok 7 ∧ regIdx resetWrap.cfg.oob 8 = .ok 0 := ⟨rfl, rfl, rfl, rfl, rfl⟩

theorem witness_PushDecrementsThenStores :
    State.reset.mem.wf = true ∧ regIdx State.reset.cfg.oob 7 = .ok 7 ∧ regIdx resetWrap.cfg.oob 255 = .ok 7 ∧
      (State.reset.setReg 7 1).reg 7 ≠ 0 ∧ resetWrap.cfg.oob = .wrap := ⟨rfl, rfl, rfl, by decide, rfl⟩

theorem witness_PopLoadsThenIncrements :
    regIdx State.reset.cfg.oob 6 = .ok 6 ∧ (6 : RegIndex) ≠ 7 ∧ (State.reset.setReg 7 254).reg 7 ≠ 255 ∧
      regIdx State.reset.cfg.oob 7 = .ok 7 ∧ (State.reset.memWrite 244 254).memRead (State.reset.reg 7) ≠ 255 ∧
      resetWrap.cfg.oob = .wrap := ⟨rfl, by decide, by decide, rfl, by decide, rfl⟩

theorem witness_CallPushesTheReturnAddressAndJumps :
    State.reset.mem.wf = true ∧ regIdx State.reset.cfg.oob 7 = .ok 7 ∧ regIdx resetWrap.cfg.oob 255 = .ok 7 ∧
      (State.reset.setPc 253).pc.toNat + 2 ≤ 255 ∧ (State.reset.setReg 7 1).reg 7 ≠ 0 ∧
      resetWrap.cfg.oob = .wrap := ⟨rfl, rfl, rfl, by decide, by decide, rfl⟩

theorem witness_RetPopsThePc :
    (State.reset.setReg 7 254).reg 7 ≠ 255 ∧ resetWrap.cfg.oob = .wrap := by decide

theorem witness_StackPointerAndReturnAddressFault :
    State.reset.cfg.oob = .fault ∧ regIdx State.reset.cfg.oob 6 = .ok 6 ∧ regIdx State.reset.cfg.oob 7 = .ok 7 ∧
      (State.reset.setReg 7 0).reg 7 = 0 ∧ (State.reset.setReg 7 255).reg 7 = 255 ∧
      (State.reset.memWrite 244 255).memRead (State.reset.reg 7) = 255 ∧ (State.reset.setPc 254).pc = 254 ∧
      (State.reset.setPc 253).pc.toNat ≤ 253 := ⟨rfl, rfl, rfl, by decide, by decide, by decide, rfl, by decide⟩

theorem witness_PushThenPopIsIdentity :
    State.reset.mem.wf = true ∧ State.reset.status = .running ∧
      exec (.push 7) State.reset = .next (((State.reset.setReg 7 243).memWrite 243 243).setPc 2) ∧
      (((State.reset.setReg 7 243).memWrite 243 243).setPc 2).status = .running := ⟨rfl, rfl, rfl, rfl⟩

theorem witness_CallThenRetResumes :
    ∃ t : State, exec (.call 7) State.reset = .next t ∧ State.reset.mem.wf = true ∧
      State.reset.status = .running ∧ t.status = .running ∧ (t.setReg 0 9).cfg = t.cfg ∧
      (t.setReg 0 9).reg 7 = t.reg 7 ∧ (t.setReg 0 9).memRead (t.reg 7) = t.memRead (t.reg 7) :=
        ⟨((State.reset.setReg 7 243).memWrite 243 2).setPc 243, next_of_nextOf (by decide +kernel), rfl, rfl, rfl,
          rfl, rfl, rfl⟩

theorem witness_CmpSetsExactlyOneFlag :
    regIdx State.reset.cfg.oob 7 = .ok 7 ∧ regIdx State.reset.cfg.oob 0 = .ok 0 ∧
      regIdx resetWrap.cfg.oob 255 = .ok 7 ∧ regIdx resetWrap.cfg.oob 8 = .ok 0 ∧
      ((regs01 254 255).reg 0).toNat < ((regs01 254 255).reg 1).toNat ∧
      ((regs01 1 0).reg 1).toNat < ((regs01 1 0).reg 0).toNat ∧
      (regs01 255 255).reg 0 = (regs01 255 255).reg 1 := ⟨rfl, rfl, rfl, rfl, by decide, by decide, rfl⟩

theorem witness_ConditionalJumpsFollowTheirFlags :
    regIdx State.reset.cfg.oob 7 = .ok 7 ∧ regIdx resetWrap.cfg.oob 255 = .ok 7 ∧
      (Instr.jge 7, (0b001 : Byte).getLsbD 1 || (0b001 : Byte).getLsbD 0) = (Instr.jge 7, true) ∧
      (Instr.jge 7, (0b000 : Byte).getLsbD 1 || (0b000 : Byte).getLsbD 0) = (Instr.jge 7, false) :=
        ⟨rfl, rfl, rfl, rfl⟩

theorem witness_JumpsAfterCmpDecideTheOrder :
    regIdx State.reset.cfg.oob 7 = .ok 7 ∧ regIdx State.reset.cfg.oob 0 = .ok 0 ∧
      regIdx resetWrap.cfg.oob 255 = .ok 7 ∧ regIdx resetWrap.cfg.oob 8 = .ok 0 ∧
      exec (.cmp 7 0) State.reset = .next ((State.reset.setFl 0b010).setPc 3) ∧
      ((State.reset.setReg 3 255).setFl 0b010).fl = ((State.reset.setFl 0b010).setPc 3).fl ∧
      regIdx ((State.reset.setReg 3 255).setFl 0b010).cfg.oob 3 = .ok 3 ∧
      decide ((State.reset.reg 7).toNat > (State.reset.reg 0).toNat) = true ∧
      decide ((State.reset.reg 7).toNat = (State.reset.reg 0).toNat) = false :=
        ⟨rfl, rfl, rfl, rfl, rfl, rfl, rfl, by decide, by decide⟩

theorem witness_DivAndModDivideUnsigned :
    regIdx State.reset.cfg.oob 7 = .ok 7 ∧ regIdx State.reset.cfg.oob 0 = .ok 0 ∧
      regIdx resetWrap.cfg.oob 255 = .ok 7 ∧ regIdx resetWrap.cfg.oob 8 = .ok 0 ∧
      (State.reset.setReg 0 1).reg 0 ≠ 0 := ⟨rfl, rfl, rfl, rfl, by decide⟩

theorem witness_DivisionByZeroRaises :
    regIdx State.reset.cfg.oob 7 = .ok 7 ∧ regIdx State.reset.cfg.oob 0 = .ok 0 ∧
      regIdx resetWrap.cfg.oob 255 = .ok 7 ∧ regIdx resetWrap.cfg.oob 8 = .ok 0 ∧ State.reset.reg 0 = 0 :=
        ⟨rfl, rfl, rfl, rfl, rfl⟩

theorem witness_ShiftsUseTheWholeAmount :
    regIdx State.reset.cfg.oob 7 = .ok 7 ∧ regIdx State.reset.cfg.oob 0 = .ok 0 ∧
      regIdx resetWrap.cfg.oob 255 = .ok 7 ∧ regIdx resetWrap.cfg.oob 8 = .ok 0 ∧
      8 ≤ ((State.reset.setReg 0 8).reg 0).toNat := ⟨rfl, rfl, rfl, rfl, by decide⟩

end Sys2Proof.Tests
end

section
/-! PROOFS. Every step keeps the invariant of R39. -/

namespace Sys2Proof.Machine

/-! ### What an effect does to each field -/

section Effect

variable {s u : State}

theorem Effect.cfg_eq (h : Effect s u) : u.cfg = s.cfg := by cases h <;> rfl

theorem Effect.ie_eq (h : Effect s u) : u.ie = s.ie := by cases h <;> rfl

theorem Effect.fault_eq (h : Effect s u) : u.fault = s.fault := by cases h <;> rfl

/-- HLT alone writes the status, and no effect is a fault (R34). -/
theorem Effect.status_eq (h : Effect s u) : u.status = s.status ∨ u.status = .halted := by
  cases h
  case halt => exact .inr rfl
  all_goals exact .inl rfl

/-- CMP alone writes FL (R28). -/
theorem Effect.fl_eq (h : Effect s u) : u.fl = s.fl ∨ ∃ a b, u.fl = compareFlags a b := by
  cases h
  case flags a b => exact .inr ⟨a, b, rfl⟩
  all_goals exact .inl rfl

/-- PRN and PRA alone append an event (R36). -/
theorem Effect.out_eq (h : Effect s u) : u.out = s.out ∨ ∃ e, u.out = s.out ++ [e] := by
  cases h
  case emit k v => exact .inr ⟨⟨k, v⟩, rfl⟩
  all_goals exact .inl rfl

theorem Effect.mem_wf (h : Effect s u) (hs : s.mem.wf = true) : u.mem.wf = true := by
  cases h
  case store a v => exact memWrite_wf hs a v
  case push sp v => exact memWrite_wf (s := s.setReg spIndex sp) hs sp v
  case call sp ret target => exact memWrite_wf (s := s.setReg spIndex sp) hs sp ret
  all_goals exact hs

/-- Before the auto-advance the pc is the old one, a byte, or the one after a two-byte instruction (R86, R121). -/
theorem Effect.pc_eq (h : Effect s u) :
    u.pc = s.pc ∨ u.pc.toNat ≤ 255 ∨ u.pc = nextPc s.cfg.oob (s.pc.toNat + 2) := by
  have target (t : State) (v : Byte) : (t.jumpTo v).pc.toNat ≤ 255 := by
    have := byte_toNat_lt v
    rw [jumpTo_pc_toNat]
    omega
  cases h
  case call => exact .inr (.inl (target _ _))
  case ret => exact .inr (.inl (target _ _))
  case jump => exact .inr (.inl (target _ _))
  case skip => exact .inr (.inr rfl)
  all_goals exact .inl rfl

end Effect

/-! ### The bounds the invariant asks for -/

theorem le_maxPc {p : OobPolicy} {v : Nat} (h : v ≤ 255) : v ≤ maxPc p := by
  cases p <;> simp only [maxPc] <;> omega

/-- The next pc is in range under `wrap`, and under `fault` if the sum is (R24, R86). -/
theorem nextPc_le_maxPc {p : OobPolicy} {v : Nat} (h : v ≤ 258 ∨ p = .wrap) : (nextPc p v).toNat ≤ maxPc p := by
  cases p with
  | fault =>
    have hv : v ≤ 258 := by simpa using h
    rw [nextPc_fault_toNat, maxPc]
    omega
  | wrap =>
    rw [nextPc_wrap_toNat, maxPc]
    omega

/-- What CMP writes to FL is legal (R29). -/
theorem compareFlags_legal (a b : Byte) :
    compareFlags a b = 0 ∨ compareFlags a b = 1 ∨ compareFlags a b = 2 ∨ compareFlags a b = 4 := by
  rw [compareFlags_eq]
  split
  · exact .inr (.inr (.inr rfl))
  · split
    · exact .inr (.inr (.inl rfl))
    · exact .inr (.inl rfl)

/-! ### The invariant -/

section Inv

variable {s u : State}

/-- A state that is not FAULTED has no fault record (R35). -/
theorem State.Inv.fault_eq_none (hs : s.Inv) (h : s.status ≠ .faulted) : s.fault = none := by
  have := hs.record_iff
  simp_all

/-- Raising a fault keeps the invariant (R172). -/
theorem State.Inv.raise (hs : s.Inv) (opcode : Option Byte) (c : Cause) : (s.raise opcode c).Inv where
  mem_wf := hs.mem_wf
  fl_legal := hs.fl_legal
  ie_off := hs.ie_off
  pc_le := hs.pc_le
  record_iff := by simp
  record_addr := by rintro f ⟨⟩; rfl

/-- After an effect and the auto-advance the pc is in its range, if the instruction's bytes were (R24, R84, R86). -/
theorem Effect.autoAdvance_pc_le (he : Effect s u) (hs : s.Inv) {op : Op}
    (hpc : s.pc.toNat + op.operandCount ≤ 255 ∨ s.cfg.oob = .wrap) :
    (autoAdvance op s u).pc.toNat ≤ maxPc s.cfg.oob := by
  rw [autoAdvance_pc]
  split
  · rcases he.pc_eq with h | h | h
    · exact h ▸ hs.pc_le
    · exact le_maxPc h
    · exact h ▸ nextPc_le_maxPc (hpc.imp_left fun h => by omega)
  · exact nextPc_le_maxPc (hpc.imp_left fun h => by omega)

/-- An effect and the auto-advance keep the invariant of a running machine whose fetch found the instruction's bytes. -/
theorem State.Inv.autoAdvance (hs : s.Inv) (hr : s.status = .running) (he : Effect s u) {op : Op}
    (hpc : s.pc.toNat + op.operandCount ≤ 255 ∨ s.cfg.oob = .wrap) : (autoAdvance op s u).Inv where
  mem_wf := by simpa using he.mem_wf hs.mem_wf
  fl_legal := by
    rw [autoAdvance_fl]
    rcases he.fl_eq with h | ⟨a, b, h⟩
    · exact h ▸ hs.fl_legal
    · exact h ▸ compareFlags_legal a b
  ie_off := by rw [autoAdvance_ie, he.ie_eq, hs.ie_off]
  pc_le := by
    rw [autoAdvance_cfg, he.cfg_eq]
    exact he.autoAdvance_pc_le hs hpc
  record_iff := by
    have hnone := hs.fault_eq_none (by simp [hr])
    rcases he.status_eq with h | h <;> simp [he.fault_eq, hnone, h, hr]
  record_addr := by
    have hnone := hs.fault_eq_none (by simp [hr])
    simp [he.fault_eq, hnone]

end Inv

/-- Settles O3, by the cases of a step: nothing, a raised fault, or a handler's effect and the auto-advance. -/
theorem everyStepKeepsTheInvariant : Obligations.EveryStepKeepsTheInvariant := by
  unfold Obligations.EveryStepKeepsTheInvariant
  intro s t hs hstep
  obtain ⟨_, rfl⟩ | ⟨hr, ⟨o, c, _, rfl⟩ | ⟨i, hf, ⟨u, hu, rfl⟩ | ⟨c, _, rfl⟩⟩⟩ := step_cases hstep
  · exact hs
  · exact hs.raise o c
  · obtain ⟨_, _, _, hpc⟩ := fetch_ok hf
    exact hs.autoAdvance hr (handler_effect hu) hpc
  · exact hs.raise _ c

end Sys2Proof.Machine
end

section
/-! PROOFS. What each instruction leaves unchanged, said once for all 34 handlers (R21, R28, R36, R47). -/

namespace Sys2Proof.Machine

/-! ### The frame of a handler -/

/-- What the handler of `i` leaves unchanged when it answers `u`, and its one write to memory if it has one. -/
structure HandlerFrame (i : Instr) (s u : State) : Prop where
  fl_kept : i.op ≠ .cmp → u.fl = s.fl
  out_kept : i.op ≠ .prn → i.op ≠ .pra → u.out = s.out
  reg_kept : ∀ r, r ∉ regsWritten i → u.reg r = s.reg r
  mem_written : cellWritten i s = none ∧ u.mem = s.mem ∨
    ∃ a v, cellWritten i s = some a ∧ u.mem = (s.memWrite a v).mem

section

variable {i : Instr} {s : State}

theorem HandlerFrame.setReg {r : RegIndex} (v : Byte) (hr : r ∈ regsWritten i) (hc : cellWritten i s = none) :
    HandlerFrame i s (s.setReg r v) where
  fl_kept _ := rfl
  out_kept _ _ := rfl
  reg_kept _ hq := setReg_reg_of_ne s r v fun h => hq (h ▸ hr)
  mem_written := .inl ⟨hc, rfl⟩

/-- An instruction that writes only the pc or the status writes nothing its frame speaks of. -/
theorem HandlerFrame.of_eq {u : State} (hc : cellWritten i s = none) (hfl : u.fl = s.fl) (hout : u.out = s.out)
    (hregs : u.regs = s.regs) (hmem : u.mem = s.mem) : HandlerFrame i s u where
  fl_kept _ := hfl
  out_kept _ _ := hout
  reg_kept r _ := by simp only [State.reg, hregs]
  mem_written := .inl ⟨hc, hmem⟩

end

/-- Every handler that answers a state keeps what the tables of R21, R28, R36 and R47 say it does. -/
theorem handler_frame {i : Instr} {s u : State} (h : handler i s = .ok u) : HandlerFrame i s u := by
  have pushed (t : State) (sp : Byte) (r : RegIndex) (hr : r ∉ [spIndex]) : (t.setReg spIndex sp).reg r = t.reg r :=
    setReg_reg_of_ne t spIndex sp (by simpa using hr)
  have cell {sp : Byte} (hsp : pushPointer s = .ok sp) : (pushPointer s).toOption = some sp := hsp ▸ rfl
  cases i <;> simp only [handler] at h
  case nop => exact handleNop_ok.1 h ▸ .of_eq rfl rfl rfl rfl rfl
  case hlt => exact handleHlt_ok.1 h ▸ .of_eq rfl rfl rfl rfl rfl
  case ldi => exact (handleLdi_ok.1 h).2 ▸ .setReg _ (by simp [regsWritten]) rfl
  case ld => exact (handleLd_ok.1 h).2 ▸ .setReg _ (by simp [regsWritten]) rfl
  case st =>
    obtain ⟨_, rfl⟩ := handleSt_ok.1 h
    exact ⟨fun _ => rfl, fun _ _ => rfl, fun _ _ => rfl, .inr ⟨_, _, rfl, rfl⟩⟩
  case push =>
    obtain ⟨_, sp, hsp, rfl⟩ := handlePush_ok.1 h
    exact ⟨fun _ => rfl, fun _ _ => rfl, pushed s sp, .inr ⟨sp, _, cell hsp, rfl⟩⟩
  case pop n =>
    obtain ⟨_, sp, _, rfl⟩ := handlePop_ok.1 h
    refine ⟨fun _ => rfl, fun _ _ => rfl, fun r hr => ?_, .inl ⟨rfl, rfl⟩⟩
    obtain ⟨hn, hp⟩ : r ≠ namedReg n ∧ r ≠ spIndex := by simpa [regsWritten] using hr
    rw [setReg_reg_of_ne _ _ _ hp, setReg_reg_of_ne _ _ _ hn]
  case prn =>
    obtain ⟨_, rfl⟩ := handlePrn_ok.1 h
    exact ⟨fun _ => rfl, fun h _ => absurd rfl h, fun _ _ => rfl, .inl ⟨rfl, rfl⟩⟩
  case pra =>
    obtain ⟨_, rfl⟩ := handlePra_ok.1 h
    exact ⟨fun _ => rfl, fun _ h => absurd rfl h, fun _ _ => rfl, .inl ⟨rfl, rfl⟩⟩
  case call =>
    obtain ⟨_, _, _, sp, hsp, rfl⟩ := handleCall_ok.1 h
    exact ⟨fun _ => rfl, fun _ _ => rfl, pushed s sp, .inr ⟨sp, _, cell hsp, rfl⟩⟩
  case ret =>
    obtain ⟨sp, _, rfl⟩ := handleRet_ok.1 h
    exact ⟨fun _ => rfl, fun _ _ => rfl, pushed s sp, .inl ⟨rfl, rfl⟩⟩
  case int => exact absurd h handleInt_ok
  case iret => exact absurd h handleIret_ok
  case jmp => exact (handleJmp_ok.1 h).2 ▸ .of_eq rfl rfl rfl rfl rfl
  case cmp =>
    obtain ⟨_, rfl⟩ := handleCmp_ok.1 h
    exact ⟨fun h => absurd rfl h, fun _ _ => rfl, fun _ _ => rfl, .inl ⟨rfl, rfl⟩⟩
  case jeq | jne | jgt | jlt | jle | jge =>
    rw [(jumpIf_ok.1 h).2]
    split
    · exact .of_eq rfl rfl rfl rfl rfl
    · exact .of_eq rfl rfl rfl rfl rfl
  case add | sub | mul | and | or | xor | shl | shr =>
    exact (aluTwo_ok.1 h).2 ▸ .setReg _ (by simp [regsWritten]) rfl
  case div | mod => exact (aluDivide_ok.1 h).2.2 ▸ .setReg _ (by simp [regsWritten]) rfl
  case inc | dec | not => exact (aluOne_ok.1 h).2 ▸ .setReg _ (by simp [regsWritten]) rfl

/-- A field that neither the auto-advance nor a raised fault changes is kept by an instruction if its handler keeps
it. -/
theorem exec_keeps {α : Type} (f : State → α) {i : Instr} {s t : State} (h : exec i s = .next t)
    (hadv : ∀ u, f (autoAdvance i.op s u) = f u) (hraise : ∀ o c, f (s.raise o c) = f s)
    (hf : ∀ u, handler i s = .ok u → f u = f s) : f t = f s := by
  obtain ⟨u, hu, rfl⟩ | ⟨c, _, rfl⟩ := exec_next_iff.1 h
  · rw [hadv, hf u hu]
  · exact hraise _ _

/-- An instruction that does not end FAULTED is its handler's answer, advanced. -/
theorem exec_of_not_faulted {i : Instr} {s t : State} (h : exec i s = .next t) (ht : t.status ≠ .faulted) :
    ∃ u, handler i s = .ok u ∧ t = autoAdvance i.op s u := by
  obtain hok | ⟨c, _, rfl⟩ := exec_next_iff.1 h
  · exact hok
  · exact absurd rfl ht

/-- An instruction that ends FAULTED, of a machine that was not, is its handler's fault, raised. -/
theorem exec_of_faulted {i : Instr} {s t : State} (h : exec i s = .next t) (hs : s.status ≠ .faulted)
    (ht : t.status = .faulted) :
    ∃ c, handler i s = .error c ∧ t = s.raise (some (s.cfg.opcodeMap.byteOf i.op)) c := by
  obtain ⟨u, hu, rfl⟩ | hc := exec_next_iff.1 h
  · rw [autoAdvance_status] at ht
    rcases (handler_effect hu).status_eq with h | h <;> simp_all
  · exact hc

end Sys2Proof.Machine
end

section
/-! PROOFS. An instruction commutes with every change of what it neither reads nor writes (R21, R28, R30). -/

namespace Sys2Proof.Machine

/-- The change `g` of the state touches nothing that instruction `i` reads or writes: it keeps the parameters, the pc,
memory and the registers `i` reads under FL `fl`, FL itself if `i` is a conditional jump, and it commutes with the
writes `i` does. -/
structure Untouched (i : Instr) (fl : Byte) (g : State → State) : Prop where
  cfg (s : State) : (g s).cfg = s.cfg
  pc (s : State) : (g s).pc = s.pc
  mem (s : State) : (g s).mem = s.mem
  reg (s : State) : ∀ q ∈ regsRead i fl, (g s).reg q = s.reg q
  flags (s : State) : i.op.isConditionalJump = true → (g s).fl = s.fl
  setReg (s : State) (v : Byte) : ∀ q ∈ regsWritten i, (g s).setReg q v = g (s.setReg q v)
  setFl (s : State) (v : Byte) : i.op = .cmp → (g s).setFl v = g (s.setFl v)
  memWrite (s : State) (a v : Byte) : (g s).memWrite a v = g (s.memWrite a v)
  setPc (s : State) (t : PcWord) : (g s).setPc t = g (s.setPc t)
  emit (s : State) (k : EventKind) (v : Byte) : (g s).emit k v = g (s.emit k v)
  halt (s : State) : (g s).halt = g s.halt
  raise (s : State) (o : Option Byte) (c : Cause) : (g s).raise o c = g (s.raise o c)

variable {i : Instr} {fl : Byte} {g : State → State} {s : State}

theorem Untouched.memRead (hg : Untouched i fl g) (s : State) (a : Byte) : (g s).memRead a = s.memRead a := by
  rw [State.memRead, hg.mem, State.memRead]

theorem Untouched.jumpTo (hg : Untouched i fl g) (s : State) (v : Byte) : (g s).jumpTo v = g (s.jumpTo v) :=
  hg.setPc s _

/-! ### The checks and forms -/

theorem bind_map {α : Type} {x : Checked α} {f f' : α → Checked State} (h : ∀ a, f' a = (f a).map g) :
    x.bind f' = (x.bind f).map g := by
  cases x with
  | error c => rfl
  | ok a => exact h a

theorem withReg_map {s' : State} {n : RegOperand} {f f' : RegIndex → Checked State} (hc : s'.cfg = s.cfg)
    (h : f' (namedReg n) = (f (namedReg n)).map g) : withReg s' n f' = (withReg s n f).map g := by
  rw [withReg, withReg, hc]
  cases hn : regIdx s.cfg.oob n with
  | error c => rfl
  | ok r =>
    obtain ⟨_, rfl⟩ := regIdx_ok_iff.1 hn
    exact h

theorem withRegs_map {s' : State} {a b : RegOperand} {f f' : RegIndex → RegIndex → Checked State}
    (hc : s'.cfg = s.cfg) (h : f' (namedReg a) (namedReg b) = (f (namedReg a) (namedReg b)).map g) :
    withRegs s' a b f' = (withRegs s a b f).map g :=
  withReg_map (n := a) hc (withReg_map (n := b) hc h)

theorem jumpIf_untouched {cond : Byte → Bool} {n : RegOperand} (hg : Untouched i s.fl g)
    (hi : i.op.isConditionalJump = true) (hr : regsRead i s.fl = if cond s.fl then [namedReg n] else []) :
    jumpIf cond n (g s) = (jumpIf cond n s).map g := by
  refine withReg_map (hg.cfg s) (congrArg Except.ok ?_)
  rw [hg.flags s hi, hg.cfg, hg.pc]
  split
  next ht => rw [hg.reg s (namedReg n) (by simp [hr, ht]), hg.jumpTo]
  next => exact hg.setPc s _

section

variable (hg : Untouched i fl g)
include hg

theorem aluTwo_untouched {f : Byte → Byte → Byte} {a b : RegOperand}
    (hr : regsRead i fl = [namedReg a, namedReg b]) (hw : regsWritten i = [namedReg a]) :
    aluTwo f a b (g s) = (aluTwo f a b s).map g := by
  refine withRegs_map (hg.cfg s) (congrArg Except.ok ?_)
  rw [hg.reg s (namedReg a) (by simp [hr]), hg.reg s (namedReg b) (by simp [hr]), hg.setReg s _ _ (by simp [hw])]

theorem aluOne_untouched {f : Byte → Byte} {a : RegOperand}
    (hr : regsRead i fl = [namedReg a]) (hw : regsWritten i = [namedReg a]) :
    aluOne f a (g s) = (aluOne f a s).map g := by
  refine withReg_map (hg.cfg s) (congrArg Except.ok ?_)
  rw [hg.reg s (namedReg a) (by simp [hr]), hg.setReg s _ _ (by simp [hw])]

theorem aluDivide_untouched {f : Byte → Byte → Byte} {a b : RegOperand}
    (hr : regsRead i fl = [namedReg a, namedReg b]) (hw : regsWritten i = [namedReg a]) :
    aluDivide f a b (g s) = (aluDivide f a b s).map g := by
  refine withRegs_map (hg.cfg s) ?_
  rw [hg.reg s (namedReg a) (by simp [hr]), hg.reg s (namedReg b) (by simp [hr]), hg.setReg s _ _ (by simp [hw])]
  split <;> rfl

theorem pushPointer_untouched (h : (g s).reg spIndex = s.reg spIndex) : pushPointer (g s) = pushPointer s := by
  rw [pushPointer, pushPointer, hg.cfg, h]

theorem popPointer_untouched (r : RegIndex) (h : (g s).reg spIndex = s.reg spIndex) :
    popPointer (g s) r = popPointer s r := by
  rw [popPointer, popPointer, hg.cfg, hg.memRead, h]

theorem retPointer_untouched (h : (g s).reg spIndex = s.reg spIndex) : retPointer (g s) = retPointer s := by
  rw [retPointer, retPointer, hg.cfg, h]

theorem returnAddress_untouched : returnAddress (g s) = returnAddress s := by
  rw [returnAddress, returnAddress, hg.cfg, hg.pc]

end

/-! ### The handlers, the instruction -/

/-- A handler's answer is changed by `g` as its argument is, if `g` touches nothing the instruction reads or writes. -/
theorem handler_untouched (hg : Untouched i s.fl g) : handler i (g s) = (handler i s).map g := by
  have hreg (t : State) := hg.reg t
  cases i <;> simp only [handler]
  case nop => rfl
  case hlt => exact congrArg Except.ok (hg.halt s)
  case int => rfl
  case iret => rfl
  case ldi => exact withReg_map (hg.cfg s) (congrArg Except.ok (hg.setReg s _ _ (by simp [regsWritten])))
  case ld a b =>
    refine withRegs_map (hg.cfg s) (congrArg Except.ok ?_)
    rw [hreg s (namedReg b) (by simp [regsRead]), hg.memRead, hg.setReg s _ _ (by simp [regsWritten])]
  case st a b =>
    refine withRegs_map (hg.cfg s) (congrArg Except.ok ?_)
    rw [stAddress, hreg s (namedReg a) (by simp [regsRead]), hreg s (namedReg b) (by simp [regsRead]), hg.memWrite]
    rfl
  case prn n | pra n =>
    refine withReg_map (hg.cfg s) (congrArg Except.ok ?_)
    rw [hreg s (namedReg n) (by simp [regsRead]), hg.emit]
  case jmp n =>
    refine withReg_map (hg.cfg s) (congrArg Except.ok ?_)
    rw [hreg s (namedReg n) (by simp [regsRead]), hg.jumpTo]
  case cmp a b =>
    refine withRegs_map (hg.cfg s) (congrArg Except.ok ?_)
    rw [hreg s (namedReg a) (by simp [regsRead]), hreg s (namedReg b) (by simp [regsRead]), hg.setFl s _ rfl]
  case push n =>
    refine withReg_map (hg.cfg s) ?_
    rw [pushPointer_untouched hg (hreg s _ (by simp [regsRead]))]
    refine bind_map fun sp => congrArg Except.ok ?_
    rw [hg.setReg s _ _ (by simp [regsWritten]), hreg _ (namedReg n) (by simp [regsRead]), hg.memWrite]
  case pop n =>
    refine withReg_map (hg.cfg s) ?_
    have hsp : (g s).reg spIndex = s.reg spIndex := hreg s _ (by simp [regsRead])
    rw [popPointer_untouched hg _ hsp]
    refine bind_map fun sp => congrArg Except.ok ?_
    rw [hsp, hg.memRead, hg.setReg s _ _ (by simp [regsWritten]), hg.setReg _ _ _ (by simp [regsWritten])]
  case call n =>
    refine withReg_map (hg.cfg s) ?_
    rw [returnAddress_untouched hg, pushPointer_untouched hg (hreg s _ (by simp [regsRead]))]
    refine bind_map fun ret => bind_map fun sp => congrArg Except.ok ?_
    rw [hg.setReg s _ _ (by simp [regsWritten]), hg.memWrite, hreg _ (namedReg n) (by simp [regsRead]), hg.jumpTo]
  case ret =>
    have hsp : (g s).reg spIndex = s.reg spIndex := hreg s _ (by simp [regsRead])
    rw [handleRet, retPointer_untouched hg hsp]
    refine bind_map fun sp => congrArg Except.ok ?_
    rw [hsp, hg.memRead, hg.setReg s _ _ (by simp [regsWritten]), hg.jumpTo]
  case jeq | jne | jgt | jlt | jle | jge => exact jumpIf_untouched hg rfl rfl
  case add | sub | mul | and | or | xor | shl | shr => exact aluTwo_untouched hg rfl rfl
  case div | mod => exact aluDivide_untouched hg rfl rfl
  case inc | dec | not => exact aluOne_untouched hg rfl rfl

theorem autoAdvance_untouched (hg : Untouched i fl g) (op : Op) (s u : State) :
    autoAdvance op (g s) (g u) = g (autoAdvance op s u) := by
  rw [autoAdvance, autoAdvance, hg.cfg, hg.pc]
  split
  · rfl
  · exact hg.setPc u _

/-- An instruction commutes with a change of the state that touches nothing it reads or writes. -/
theorem exec_untouched (hg : Untouched i s.fl g) {t : State} (h : exec i s = .next t) : exec i (g s) = .next (g t) := by
  refine exec_next_iff.2 ?_
  rw [handler_untouched hg]
  obtain ⟨u, hu, rfl⟩ | ⟨c, hc, rfl⟩ := exec_next_iff.1 h
  · exact .inl ⟨g u, by rw [hu]; rfl, (autoAdvance_untouched hg _ s u).symm⟩
  · exact .inr ⟨c, by rw [hc]; rfl, by rw [hg.cfg, hg.raise]⟩

end Sys2Proof.Machine
end

section
/-! PROOFS. The parameters, the interrupt-enable bit and FL: what changes them and what depends on them (R28, R30,
R40). -/

namespace Sys2Proof.Machine

/-! ### The interrupt-enable bit -/

/-- `s` with another interrupt-enable bit. -/
def State.setIe (s : State) (b : Bool) : State := { s with ie := b }

/-- No instruction reads or writes the interrupt-enable bit (R30). -/
theorem setIe_untouched (i : Instr) (fl : Byte) (b : Bool) : Untouched i fl fun s => s.setIe b where
  cfg _ := rfl
  pc _ := rfl
  mem _ := rfl
  reg _ _ _ := rfl
  flags _ _ := rfl
  setReg _ _ _ _ := rfl
  setFl _ _ _ := rfl
  memWrite _ _ _ := rfl
  setPc _ _ := rfl
  emit _ _ _ := rfl
  halt _ := rfl
  raise _ _ _ := rfl

theorem fetch_setIe (s : State) (b : Bool) : fetch (s.setIe b) = fetch s := rfl

/-- A step does not depend on the interrupt-enable bit. -/
theorem step_setIe {s t : State} (h : step s = .next t) (b : Bool) : step (s.setIe b) = .next (t.setIe b) := by
  by_cases hr : s.status = .running
  · have hr' : (s.setIe b).status = .running := hr
    cases hf : fetch s with
    | error e =>
      obtain ⟨o, c⟩ := e
      rw [step_of_fetch_error hr hf] at h
      cases h
      rw [step_of_fetch_error hr' (by rw [fetch_setIe, hf])]
      rfl
    | ok i =>
      rw [step_of_fetch_ok hr hf] at h
      rw [step_of_fetch_ok hr' (by rw [fetch_setIe, hf])]
      exact exec_untouched (setIe_untouched i s.fl b) h
  · rw [step_of_stopped hr] at h
    cases h
    exact step_of_stopped hr

/-- A field that a raised fault, the auto-advance and the handlers' effects keep is kept by every step. -/
theorem step_keeps {α : Type} (f : State → α) {s t : State} (h : step s = .next t)
    (hraise : ∀ o c, f (s.raise o c) = f s) (hadv : ∀ op u, f (autoAdvance op s u) = f u)
    (heff : ∀ u, Effect s u → f u = f s) : f t = f s := by
  obtain ⟨_, rfl⟩ | ⟨_, ⟨o, c, _, rfl⟩ | ⟨i, _, ⟨u, hu, rfl⟩ | ⟨c, _, rfl⟩⟩⟩ := step_cases h
  · rfl
  · exact hraise o c
  · rw [hadv, heff u (handler_effect hu)]
  · exact hraise _ c

/-- Settles O4: no effect writes them, and no instruction or fetch reads the interrupt-enable bit. -/
theorem parametersAndInterruptEnableAreInert : Obligations.ParametersAndInterruptEnableAreInert := by
  unfold Obligations.ParametersAndInterruptEnableAreInert
  intro s t h
  refine ⟨?_, ?_, step_setIe h⟩
  · exact step_keeps State.cfg h (raise_cfg s) (autoAdvance_cfg · s) fun _ => Effect.cfg_eq
  · exact step_keeps State.ie h (raise_ie s) (autoAdvance_ie · s) fun _ => Effect.ie_eq

/-! ### FL -/

/-- Every instruction but CMP and the conditional jumps commutes with a change of FL (R28). -/
theorem setFl_untouched {i : Instr} (hj : i.op.isConditionalJump = false) (hc : i.op ≠ .cmp) (fl v : Byte) :
    Untouched i fl fun s => s.setFl v where
  cfg _ := rfl
  pc _ := rfl
  mem _ := rfl
  reg _ _ _ := rfl
  flags _ h := by simp [hj] at h
  setReg _ _ _ _ := rfl
  setFl _ _ h := absurd h hc
  memWrite _ _ _ := rfl
  setPc _ _ := rfl
  emit _ _ _ := rfl
  halt _ := rfl
  raise _ _ _ := rfl

theorem setFl_setFl (s : State) (v w : Byte) : (s.setFl v).setFl w = s.setFl w := rfl

theorem handleCmp_of_ok {a b : RegOperand} {s : State} {ra rb : RegIndex} (ha : regIdx s.cfg.oob a = .ok ra)
    (hb : regIdx s.cfg.oob b = .ok rb) :
    handleCmp a b s = .ok (s.setFl (compareFlags (s.reg ra) (s.reg rb))) := withRegs_of_ok ha hb _

/-- CMP of two registers writes all of FL and advances (R120). -/
theorem exec_cmp_of_ok {a b : RegOperand} {s : State} {ra rb : RegIndex} (ha : regIdx s.cfg.oob a = .ok ra)
    (hb : regIdx s.cfg.oob b = .ok rb) :
    exec (.cmp a b) s = .next (autoAdvance .cmp s (s.setFl (compareFlags (s.reg ra) (s.reg rb)))) :=
  exec_next_iff.2 (.inl ⟨_, handleCmp_of_ok ha hb, rfl⟩)

/-- Settles O19: FL by the frames of the handlers and CMP's meaning, its readers by the commuting of all others. -/
theorem flagsAreCmpsAndTheJumps : Obligations.FlagsAreCmpsAndTheJumps := by
  unfold Obligations.FlagsAreCmpsAndTheJumps
  refine ⟨fun i s t hi h => ?_, fun a b s t ra rb ha hb h => ?_, fun i s t v hj hc h => ?_⟩
  · exact exec_keeps State.fl h (autoAdvance_fl _ s) (raise_fl s) fun u hu => (handler_frame hu).fl_kept hi
  · rw [exec_cmp_of_ok ha hb] at h
    cases h
    refine ⟨?_, fun v => ?_⟩
    · simp [compareFlags, BitVec.toNat_inj]
    · rw [exec_cmp_of_ok (s := s.setFl v) ha hb]
      rfl
  · exact exec_untouched (setFl_untouched hj hc s.fl v) h

end Sys2Proof.Machine
end

section
/-! PROOFS. The registers an instruction reads and writes (R21, R85). -/

namespace Sys2Proof.Machine

/-! ### Every register can be named (R85) -/

theorem regIdx_of_le {n : RegOperand} (h : n.toNat ≤ 7) (p : OobPolicy) : regIdx p n = .ok (namedReg n) :=
  regIdx_ok_iff.2 ⟨.inr h, rfl⟩

theorem regIdx_ofNat (p : OobPolicy) (r : RegIndex) : regIdx p (BitVec.ofNat 8 r.val) = .ok r := by
  have hr : (BitVec.ofNat 8 r.val).toNat = r.val := by simp; omega
  refine regIdx_ok_iff.2 ⟨.inr (by omega), ?_⟩
  simp [namedReg, hr]

/-- The computation does not end in `OutOfRange(RegIndex)`. -/
def NoRegFault {α : Type} (x : Checked α) : Prop := ∀ v, x ≠ .error (.outOfRange .regIndex v)

theorem noRegFault_ok {α : Type} (u : α) : NoRegFault (.ok u : Checked α) := fun _ h => by cases h

theorem toByte_noRegFault {p : OobPolicy} {what : RangeKind} (hw : what ≠ .regIndex) (v : Int) :
    NoRegFault (toByte p what v) := fun w h => by
  obtain ⟨_, _, hc⟩ := inRange_error_iff.1 h
  cases hc
  exact hw rfl

theorem NoRegFault.bind {α β : Type} {x : Checked α} {f : α → Checked β} (hx : NoRegFault x)
    (hf : ∀ a, NoRegFault (f a)) : NoRegFault (x.bind f) := fun v h => by
  obtain h | ⟨a, _, h⟩ := bind_error_iff.1 h
  · exact hx v h
  · exact hf a v h

theorem withReg_noRegFault {s : State} {n : RegOperand} {f : RegIndex → Checked State} (hn : n.toNat ≤ 7)
    (hf : NoRegFault (f (namedReg n))) : NoRegFault (withReg s n f) := by
  rwa [withReg_of_ok (regIdx_of_le hn _)]

theorem withRegs_noRegFault {s : State} {a b : RegOperand} {f : RegIndex → RegIndex → Checked State}
    (hab : a.toNat ≤ 7 ∧ b.toNat ≤ 7) (hf : NoRegFault (f (namedReg a) (namedReg b))) :
    NoRegFault (withRegs s a b f) := by
  rwa [withRegs_of_ok (regIdx_of_le hab.1 _) (regIdx_of_le hab.2 _)]

theorem aluDivide_noRegFault {f : Byte → Byte → Byte} {s : State} {a b : RegOperand}
    (hab : a.toNat ≤ 7 ∧ b.toNat ≤ 7) : NoRegFault (aluDivide f a b s) := by
  refine withRegs_noRegFault hab ?_
  split
  · exact fun _ h => by cases h
  · exact noRegFault_ok _

/-- A handler whose register operand bytes are all at most 7 raises no `OutOfRange(RegIndex)`. -/
theorem handler_noRegFault {i : Instr} (hi : i.wellFormed = true) (s : State) : NoRegFault (handler i s) := by
  have stack {v : Int} : NoRegFault (toByte s.cfg.oob .stackPointer v) := toByte_noRegFault (by decide) v
  have ret : NoRegFault (returnAddress s) := toByte_noRegFault (by decide) _
  cases i <;> simp [Instr.wellFormed, Instr.regOperands, RegOperand.wellFormed] at hi <;> simp only [handler]
  case nop | hlt => exact noRegFault_ok _
  case int | iret => exact fun _ h => by cases h
  case ld | st | cmp | add | sub | mul | and | or | xor | shl | shr => exact withRegs_noRegFault hi (noRegFault_ok _)
  case div | mod => exact aluDivide_noRegFault hi
  case ldi | prn | pra | jmp | jeq | jne | jgt | jlt | jle | jge | inc | dec | not =>
    exact withReg_noRegFault hi (noRegFault_ok _)
  case push | pop => exact withReg_noRegFault hi (stack.bind fun _ => noRegFault_ok _)
  case call => exact withReg_noRegFault hi (ret.bind fun _ => stack.bind fun _ => noRegFault_ok _)
  case ret => exact stack.bind fun _ => noRegFault_ok _

/-! ### A register that is not read -/

theorem setReg_setReg_same (s : State) (r : RegIndex) (v w : Byte) : (s.setReg r v).setReg r w = s.setReg r w := by
  simp [State.setReg]

theorem setReg_setReg_comm (s : State) {r q : RegIndex} (h : r ≠ q) (v w : Byte) :
    (s.setReg r v).setReg q w = (s.setReg q w).setReg r v := by
  have hval : r.val ≠ q.val := Fin.val_ne_of_ne h
  simp only [State.setReg, Vector.set_comm _ _ hval]

/-- A register that an instruction neither reads nor writes can be changed before or after it. -/
theorem setReg_untouched {i : Instr} {fl : Byte} {r : RegIndex} (hr : r ∉ regsRead i fl) (hw : r ∉ regsWritten i)
    (v : Byte) : Untouched i fl fun s => s.setReg r v where
  cfg _ := rfl
  pc _ := rfl
  mem _ := rfl
  reg s _ hq := setReg_reg_of_ne s r v (ne_of_mem_of_not_mem hq hr)
  flags _ _ := rfl
  setReg s w _ hq := setReg_setReg_comm s (ne_of_mem_of_not_mem hq hw).symm v w
  setFl _ _ _ := rfl
  memWrite _ _ _ := rfl
  setPc _ _ := rfl
  emit _ _ _ := rfl
  halt _ := rfl
  raise _ _ _ := rfl

theorem withReg_congr {s s' : State} {n : RegOperand} {f f' : RegIndex → Checked State} (hc : s'.cfg = s.cfg)
    (h : f' (namedReg n) = f (namedReg n)) : withReg s' n f' = withReg s n f := by
  have := withReg_map (g := id) hc (h.trans (by rw [Except.map_id, id]))
  rwa [Except.map_id, id] at this

/-- Only LDI, LD and POP write a register that they do not read: what it held is lost. -/
theorem handler_setReg_of_written {i : Instr} {s : State} {r : RegIndex} (hr : r ∉ regsRead i s.fl)
    (hw : r ∈ regsWritten i) (v : Byte) : handler i (s.setReg r v) = handler i s := by
  cases i <;> simp only [regsRead, regsWritten, List.mem_cons, List.not_mem_nil, or_false, not_or] at hr hw
  case ldi n imm =>
    subst hw
    exact withReg_congr rfl (congrArg Except.ok (setReg_setReg_same s _ v imm))
  case ld a b =>
    subst hw
    refine withReg_congr (n := a) rfl (withReg_congr (n := b) rfl (congrArg Except.ok ?_))
    rw [setReg_reg_of_ne s _ v (Ne.symm hr), setReg_memRead, setReg_setReg_same]
  case pop n =>
    obtain rfl : r = namedReg n := hw.resolve_right hr
    have hsp : (s.setReg (namedReg n) v).reg spIndex = s.reg spIndex := setReg_reg_of_ne s _ v (Ne.symm hr)
    have hpop : popPointer (s.setReg (namedReg n) v) (namedReg n) = popPointer s (namedReg n) := by
      rw [popPointer, popPointer, hsp, setReg_memRead, setReg_cfg]
    refine withReg_congr rfl ?_
    rw [hsp, hpop, setReg_memRead, setReg_setReg_same]
  all_goals exact absurd hw (by tauto)

/-- An instruction that writes a register it does not read answers the same state, or raises the same fault with the
changed value still in the register. -/
theorem exec_setReg_of_written {i : Instr} {s t : State} {r : RegIndex} (hr : r ∉ regsRead i s.fl)
    (hw : r ∈ regsWritten i) (v : Byte) (h : exec i s = .next t) :
    exec i (s.setReg r v) = .next t ∨ exec i (s.setReg r v) = .next (t.setReg r v) := by
  have hh := handler_setReg_of_written hr hw v
  obtain ⟨u, hu, rfl⟩ | ⟨c, hc, rfl⟩ := exec_next_iff.1 h
  · exact .inl (exec_next_iff.2 (.inl ⟨u, hh.trans hu, rfl⟩))
  · exact .inr (exec_next_iff.2 (.inr ⟨c, hh.trans hc, rfl⟩))

/-- Changing a register that an instruction does not read changes nothing but that register. -/
theorem exec_setReg_of_not_read {i : Instr} {s t : State} {r : RegIndex} (hr : r ∉ regsRead i s.fl) (v : Byte)
    (h : exec i s = .next t) :
    exec i (s.setReg r v) = .next (t.setReg r v) ∨ r ∈ regsWritten i ∧ exec i (s.setReg r v) = .next t := by
  by_cases hw : r ∈ regsWritten i
  · exact (exec_setReg_of_written hr hw v h).symm.imp_right fun h => ⟨hw, h⟩
  · exact .inl (exec_untouched (setReg_untouched hr hw v) h)

/-- DIV and MOD by 0 write no register: they raise (R144, R145). -/
theorem divide_by_zero_keeps_regs {a b : RegOperand} {s t : State} (hz : s.reg (namedReg b) = 0)
    (h : exec (.div a b) s = .next t ∨ exec (.mod a b) s = .next t) : t.regs = s.regs := by
  have raised {f : Byte → Byte → Byte} (u : State) (hu : aluDivide f a b s = .ok u) : u.regs = s.regs := by
    obtain ⟨_, hnz, _⟩ := aluDivide_ok.1 hu
    exact absurd hz hnz
  rcases h with h | h
  · exact exec_keeps State.regs h (autoAdvance_regs _ s) (raise_regs s) raised
  · exact exec_keeps State.regs h (autoAdvance_regs _ s) (raise_regs s) raised

/-- Settles O20: the writes by the frames of the handlers, the reads by the commuting of the change of a register. -/
theorem registersReadAndWrittenAreTheTables : Obligations.RegistersReadAndWrittenAreTheTables := by
  unfold Obligations.RegistersReadAndWrittenAreTheTables
  refine ⟨fun i s t hi hs h f v ht hf hc => ?_, fun s r h h' => ?_, fun i s t r h hr => ?_,
    fun a b s t r hz h => ?_, fun i s t r v hr h => ?_⟩
  · obtain ⟨c, he, rfl⟩ := exec_of_faulted h hs ht
    cases hf
    exact handler_noRegFault hi s v (hc ▸ he)
  · exact ⟨withReg_of_ok (regIdx_ofNat _ r) h, fun q => withRegs_of_ok (regIdx_ofNat _ r) (regIdx_ofNat _ q) h'⟩
  · exact exec_keeps (State.reg · r) h (autoAdvance_reg _ s · r) (raise_reg s · · r)
      fun u hu => (handler_frame hu).reg_kept r hr
  · simp only [State.reg, divide_by_zero_keeps_regs hz h]
  · obtain h | ⟨hw, h⟩ := exec_setReg_of_not_read hr v h
    · exact ⟨_, h, setReg_setReg_same t r v, .inl (setReg_reg_same t r v)⟩
    · exact ⟨_, h, fun _ => rfl, .inr ⟨hw, rfl⟩⟩

end Sys2Proof.Machine
end

section
/-! PROOFS. The output stream (R36, R90, R91). -/

namespace Sys2Proof.Machine

/-- What PRN and PRA append: their event, or nothing when they fault. -/
theorem exec_out_of_emit {i : Instr} {n : RegOperand} {k : EventKind} {s t : State} (hs : s.status ≠ .faulted)
    (h : exec i s = .next t) (hi : ∀ u, handler i s = .ok u → u = s.emit k (s.reg (namedReg n))) :
    t.out = if t.status = .faulted then s.out else s.out ++ [⟨k, s.reg (namedReg n)⟩] := by
  split
  next ht =>
    obtain ⟨c, _, rfl⟩ := exec_of_faulted h hs ht
    rfl
  next ht =>
    obtain ⟨u, hu, rfl⟩ := exec_of_not_faulted h ht
    rw [autoAdvance_out, hi u hu, emit_out]

/-- A step appends at most one event. -/
theorem step_out {s t : State} (h : step s = .next t) : t.out = s.out ∨ ∃ e, t.out = s.out ++ [e] := by
  obtain ⟨_, rfl⟩ | ⟨_, ⟨o, c, _, rfl⟩ | ⟨i, _, ⟨u, hu, rfl⟩ | ⟨c, _, rfl⟩⟩⟩ := step_cases h
  · exact .inl rfl
  · exact .inl rfl
  · rw [autoAdvance_out]
    exact (handler_effect hu).out_eq
  · exact .inl rfl

theorem step_appends {s t : State} (h : step s = .next t) : ∃ events, t.out = s.out ++ events := by
  rcases step_out h with h | ⟨e, h⟩
  · exact ⟨[], by rw [h, List.append_nil]⟩
  · exact ⟨[e], h⟩

theorem runFor_of_running {k : Nat} {s t : State} (hr : s.status = .running) (h : step s = .next t) :
    runFor (k + 1) s = runFor k t := by
  simp only [runFor, hr, h]

theorem runFor_of_stopped {k : Nat} {s : State} (hr : s.status ≠ .running) : runFor k s = .next s := by
  cases k with
  | zero => rfl
  | succ k => cases hs : s.status <;> simp_all [runFor]

/-- A run under any fuel only appends events. -/
theorem runFor_out {k : Nat} {s t : State} (h : runFor k s = .next t) : ∃ events, t.out = s.out ++ events := by
  induction k generalizing s with
  | zero => cases h; exact ⟨[], (List.append_nil _).symm⟩
  | succ k ih =>
    by_cases hr : s.status = .running
    · obtain ⟨u, hu⟩ := step_total s
      rw [runFor_of_running hr hu] at h
      obtain ⟨es, hes⟩ := step_appends hu
      obtain ⟨es', hes'⟩ := ih h
      exact ⟨es ++ es', by rw [hes', hes, List.append_assoc]⟩
    · rw [runFor_of_stopped hr] at h
      cases h
      exact ⟨[], (List.append_nil _).symm⟩

/-- Settles O22: the frames of the handlers for one instruction, then induction on the fuel for a run. -/
theorem outputOnlyGrows : Obligations.OutputOnlyGrows := by
  unfold Obligations.OutputOnlyGrows
  refine ⟨fun i s t h hprn hpra => ?_, fun n s t hs h => ?_, fun n s t hs h => ?_, fun s t => step_out,
    fun k s t => runFor_out⟩
  · exact exec_keeps State.out h (autoAdvance_out _ s) (raise_out s) fun u hu => (handler_frame hu).out_kept hprn hpra
  · exact exec_out_of_emit hs h fun u hu => (handlePrn_ok.1 hu).2
  · exact exec_out_of_emit hs h fun u hu => (handlePra_ok.1 hu).2

end Sys2Proof.Machine
end

section
/-! PROOFS. Memory and the registers are ordinary storage, and reset (R20, R33, R38). -/

namespace Sys2Proof.Machine

/-! ### Reset -/

theorem resetWith_reg (cfg : Config) (r : RegIndex) :
    (State.resetWith cfg).reg r = if r = 7 then cfg.spInit else 0 := by
  fin_cases r <;> rfl

theorem resetWith_memRead (cfg : Config) (a : Byte) : (State.resetWith cfg).memRead a = 0 := rfl

/-- Settles O1: every field by the definition of reset, the registers one by one. -/
theorem resetSetsEveryPieceOfState : Obligations.ResetSetsEveryPieceOfState := by
  unfold Obligations.ResetSetsEveryPieceOfState
  refine ⟨fun s => ⟨resetWith_reg s.cfg, resetWith_memRead s.cfg, ?_⟩, rfl, rfl, rfl, rfl⟩
  exact ⟨rfl, rfl, rfl, rfl, rfl, rfl, rfl⟩

/-- Settles O2, field by field of the invariant. -/
theorem invariantHoldsAfterReset : Obligations.InvariantHoldsAfterReset := by
  unfold Obligations.InvariantHoldsAfterReset
  intro s
  exact {
    mem_wf := resetWith_mem_wf s.cfg
    fl_legal := .inl rfl
    ie_off := rfl
    pc_le := Nat.zero_le _
    record_iff := by simp [State.hostReset, State.resetWith]
    record_addr := by simp [State.hostReset, State.resetWith] }

/-! ### The canonical form -/

/-- The entries of a canonical memory are its cells that do not hold 0. -/
theorem Memory.mem_iff_read {m : Memory} (hm : m.wf = true) (k : Nat) (w : Byte) :
    (k, w) ∈ m ↔ w ≠ Memory.unlisted ∧ m.read k = w := by
  induction m with
  | nil =>
    simp only [List.not_mem_nil, Memory.read, false_iff, not_and]
    exact fun h h' => h h'.symm
  | cons c m ih =>
    obtain ⟨j, x⟩ := c
    obtain ⟨⟨_, hx, hlt⟩, hm'⟩ := (Memory.wf_cons _ _).1 hm
    rw [List.mem_cons, ih hm', Memory.read, Prod.mk.injEq]
    by_cases hk : j = k
    · have hread : Memory.read m k = Memory.unlisted := Memory.read_of_lt (hk ▸ hlt)
      rw [if_pos hk, hread]
      constructor
      · rintro (⟨_, rfl⟩ | ⟨hw, rfl⟩)
        · exact ⟨hx, rfl⟩
        · exact absurd rfl hw
      · rintro ⟨_, rfl⟩
        exact .inl ⟨hk.symm, rfl⟩
    · rw [if_neg hk]
      exact or_iff_right fun h => hk h.1.symm

/-- Settles O24: two canonical memories that read alike have the same entries, in the same rising order. -/
theorem equalMemoriesAreEqualData : Obligations.EqualMemoriesAreEqualData := by
  unfold Obligations.EqualMemoriesAreEqualData
  intro m m' hm hm' h
  obtain ⟨hord, hcells⟩ := (Memory.wf_iff m).1 hm
  obtain ⟨hord', hcells'⟩ := (Memory.wf_iff m').1 hm'
  have hread (k : Nat) (hk : k < 256) : m.read k = m'.read k := by
    have := h (BitVec.ofNat 8 k)
    rwa [BitVec.toNat_ofNat, Nat.mod_eq_of_lt hk] at this
  have : Std.Irrefl fun c d : Host.Cell => c.1 < d.1 := ⟨fun c => Nat.lt_irrefl c.1⟩
  have : Std.Antisymm fun c d : Host.Cell => c.1 < d.1 := ⟨fun c d h h' => absurd h (Nat.lt_asymm h')⟩
  refine hord.eq_of_mem_iff hord' fun c => ⟨fun hc => ?_, fun hc => ?_⟩
  · have := (Memory.mem_iff_read hm c.1 c.2).1 hc
    rw [hread _ (hcells c hc).1] at this
    exact (Memory.mem_iff_read hm' c.1 c.2).2 this
  · have := (Memory.mem_iff_read hm' c.1 c.2).1 hc
    rw [← hread _ (hcells' c hc).1] at this
    exact (Memory.mem_iff_read hm c.1 c.2).2 this

/-- Settles O23, by the laws of a write. -/
theorem memoryIsOrdinaryStorage : Obligations.MemoryIsOrdinaryStorage := by
  unfold Obligations.MemoryIsOrdinaryStorage
  exact ⟨fun _ a v h => memRead_memWrite_same h a v, fun s _ _ v h => memRead_memWrite_ne s v h,
    fun _ a v h => memWrite_wf h a v, resetWith_memRead Config.standard⟩

/-! ### Histories of writes -/

/-- The last write of a list, over a default, is that of its tail over the first write. -/
theorem lastWrite_cons_getD {κ : Type} [DecidableEq κ] (w : κ × Byte) (writes : List (κ × Byte)) (k : κ)
    (d : Byte) :
    (lastWrite (w :: writes) k).getD d = (lastWrite writes k).getD (if k = w.1 then w.2 else d) := by
  rw [lastWrite_cons]
  cases lastWrite writes k with
  | some v => rfl
  | none =>
    simp only [Option.none_or, eq_comm (a := k)]
    split <;> rfl

theorem memRead_memWrite {s : State} (h : s.mem.wf = true) (a b v : Byte) :
    (s.memWrite a v).memRead b = if b = a then v else s.memRead b := by
  split
  next hb => rw [hb, memRead_memWrite_same h]
  next hb => exact memRead_memWrite_ne s v hb

/-- After any writes a cell reads the last value written to it, else what it held. -/
theorem storeAll_memRead {s : State} (h : s.mem.wf = true) (writes : List (Byte × Byte)) (a : Byte) :
    (storeAll s writes).memRead a = (lastWrite writes a).getD (s.memRead a) := by
  induction writes generalizing s with
  | nil => rfl
  | cons w writes ih => rw [storeAll_cons, ih (memWrite_wf h w.1 w.2), lastWrite_cons_getD, memRead_memWrite h]

/-- After any writes a register reads the last value written to it, else what it held. -/
theorem setRegs_reg (s : State) (writes : List (RegIndex × Byte)) (r : RegIndex) :
    (setRegs s writes).reg r = (lastWrite writes r).getD (s.reg r) := by
  induction writes generalizing s with
  | nil => rfl
  | cons w writes ih => rw [setRegs_cons, ih, lastWrite_cons_getD, setReg_reg]

/-- Loading from cell `k` on is storing byte after byte (R202). -/
theorem storeAll_zipIdx (s : State) (bytes : List Byte) {k : Nat} (hk : k + bytes.length ≤ 256) :
    storeAll s ((bytes.zipIdx k).map fun p => (BitVec.ofNat 8 p.2, p.1)) = { s with mem := s.mem.load k bytes } := by
  induction bytes generalizing s k with
  | nil => rfl
  | cons v bytes ih =>
    rw [List.length_cons] at hk
    have hcell : (BitVec.ofNat 8 k).toNat = k := by rw [BitVec.toNat_ofNat, Nat.mod_eq_of_lt (by omega)]
    rw [List.zipIdx_cons, List.map_cons, storeAll_cons, ih _ (by omega), memWrite_mem, hcell]
    rfl

theorem load_eq_storeAll {s t : State} {bytes : List Byte} (h : s.load bytes = .ok t) :
    t = storeAll s (loadWrites bytes) := by
  unfold State.load at h
  split at h
  next hlen =>
    cases h
    exact (storeAll_zipIdx s bytes (by omega)).symm
  next => cases h

/-! ### One instruction and memory -/

/-- An instruction leaves memory, for a fault or because it writes no cell, or does the one write its frame names. -/
theorem exec_mem {i : Instr} {s t : State} (h : exec i s = .next t) :
    t.mem = s.mem ∧ (t.status = .faulted ∨ cellWritten i s = none) ∨
      ∃ a v, cellWritten i s = some a ∧ t.mem = (s.memWrite a v).mem := by
  obtain ⟨u, hu, rfl⟩ | ⟨c, _, rfl⟩ := exec_next_iff.1 h
  · rw [autoAdvance_mem]
    exact (handler_frame hu).mem_written.imp_left fun ⟨hc, hm⟩ => ⟨hm, .inr hc⟩
  · exact .inl ⟨rfl, .inl rfl⟩

theorem fetchOpcode_of_cell {s : State} {a : Byte} (h : s.pc.toNat = a.toNat) : fetchOpcode s = .ok (s.memRead a) := by
  have ha := byte_toNat_lt a
  rw [fetchOpcode_ok (.inl (by omega)), h, BitVec.ofNat_toNat, BitVec.setWidth_eq]

theorem fetchOperand_of_cell {s : State} {k : Nat} {a : Byte} (h : s.pc.toNat + k = a.toNat) :
    fetchOperand s k = .ok (s.memRead a) := by
  have ha := byte_toNat_lt a
  rw [fetchOperand_ok (.inl (by omega)), h, BitVec.ofNat_toNat, BitVec.setWidth_eq]

/-- PUSH and CALL write the cell below the stack pointer (R111, R113). -/
theorem pushPointer_toOption {s : State} (h : s.reg spIndex ≠ 0) :
    (pushPointer s).toOption = some (s.reg spIndex - 1) := by
  rw [pushPointer_ok_iff.2 ⟨.inl h, rfl⟩]
  rfl

theorem exec_ld_reg {a b : RegOperand} {s t : State} (h : exec (.ld a b) s = .next t) (ht : t.status ≠ .faulted) :
    t.reg (namedReg a) = s.memRead (s.reg (namedReg b)) := by
  obtain ⟨u, hu, rfl⟩ := exec_of_not_faulted h ht
  obtain ⟨_, rfl⟩ := handleLd_ok.1 hu
  rw [autoAdvance_reg, setReg_reg_same]

theorem exec_pop_reg {n : RegOperand} {s t : State} (h : exec (.pop n) s = .next t) (ht : t.status ≠ .faulted)
    (hn : namedReg n ≠ spIndex) : t.reg (namedReg n) = s.memRead (s.reg spIndex) := by
  obtain ⟨u, hu, rfl⟩ := exec_of_not_faulted h ht
  obtain ⟨_, sp, _, rfl⟩ := handlePop_ok.1 hu
  rw [autoAdvance_reg, setReg_reg_of_ne _ _ _ hn, setReg_reg_same]

theorem exec_ret_pc {s t : State} (h : exec .ret s = .next t) (ht : t.status ≠ .faulted) :
    t.pc.toNat = (s.memRead (s.reg spIndex)).toNat := by
  obtain ⟨u, hu, rfl⟩ := exec_of_not_faulted h ht
  obtain ⟨sp, _, rfl⟩ := handleRet_ok.1 hu
  exact jumpTo_pc_toNat _ _

/-- Settles O51: the histories by induction on the writes, an instruction by its frame, each reader by its meaning. -/
theorem readsReturnTheLastValueWritten : Obligations.ReadsReturnTheLastValueWritten := by
  unfold Obligations.ReadsReturnTheLastValueWritten
  exact ⟨fun _ writes a h => storeAll_memRead h writes a,
    fun s a => ⟨resetWith_mem_wf s.cfg, resetWith_memRead s.cfg a⟩,
    fun _ _ _ => load_eq_storeAll,
    fun _ _ _ => exec_mem,
    fun _ _ h => ⟨pushPointer_toOption h, pushPointer_toOption h⟩,
    fun _ _ => fetchOpcode_of_cell,
    fun _ _ _ => fetchOperand_of_cell,
    fun _ _ _ _ => exec_ld_reg,
    fun _ _ _ => exec_pop_reg,
    fun _ _ => exec_ret_pc⟩

/-! ### LDI and JMP, the plainest writer and reader of a register -/

theorem exec_ldi_of_ok {n : RegOperand} {s : State} {r : RegIndex} (hr : regIdx s.cfg.oob n = .ok r) (v : Byte) :
    exec (.ldi n v) s = .next (autoAdvance .ldi s (s.setReg r v)) :=
  exec_next_iff.2 (.inl ⟨_, withReg_of_ok hr _, rfl⟩)

theorem exec_jmp_of_ok {n : RegOperand} {s : State} {r : RegIndex} (hr : regIdx s.cfg.oob n = .ok r) :
    exec (.jmp n) s = .next (s.jumpTo (s.reg r)) :=
  exec_next_iff.2 (.inl ⟨_, withReg_of_ok hr _, rfl⟩)

/-- Settles O52: the history by induction on the writes, then LDI and JMP of a register. -/
theorem registersAreOrdinary : Obligations.RegistersAreOrdinary := by
  unfold Obligations.RegistersAreOrdinary
  refine ⟨setRegs_reg, rfl, fun n v s r hr => ⟨_, exec_ldi_of_ok hr v, ?_, fun q hq => ?_, ?_⟩⟩
  · rw [autoAdvance_reg, setReg_reg_same]
  · rw [autoAdvance_reg, setReg_reg_of_ne s r v hq]
  · refine ⟨_, exec_jmp_of_ok hr, ?_, fun q => jumpTo_reg _ _ q⟩
    rw [jumpTo_pc_toNat, autoAdvance_reg, setReg_reg_same]

end Sys2Proof.Machine
end

section
/-! PROOFS. The cell an instruction reads as data, and that a store is seen by every later fetch of its cell (R47, R52). -/

namespace Sys2Proof.Machine

/-! ### An instruction in another memory -/

/-- `s` with another memory. -/
def State.setMem (s : State) (m : Memory) : State := { s with mem := m }

@[simp] theorem setMem_cfg (s : State) (m : Memory) : (s.setMem m).cfg = s.cfg := rfl
@[simp] theorem setMem_fl (s : State) (m : Memory) : (s.setMem m).fl = s.fl := rfl
@[simp] theorem setMem_reg (s : State) (m : Memory) (r : RegIndex) : (s.setMem m).reg r = s.reg r := rfl

theorem autoAdvance_setMem (op : Op) (s u : State) (m m' : Memory) :
    autoAdvance op (s.setMem m) (u.setMem m') = (autoAdvance op s u).setMem m' := by
  unfold autoAdvance
  split <;> rfl

/-- The two answers are the same but for the memory of the state. -/
def AlikeButMemory (x y : Checked State) : Prop := ∃ m, x = y.map (·.setMem m)

theorem AlikeButMemory.bind {α : Type} {x : Checked α} {f f' : α → Checked State}
    (h : ∀ a, AlikeButMemory (f' a) (f a)) : AlikeButMemory (x.bind f') (x.bind f) := by
  cases x with
  | error c => exact ⟨[], rfl⟩
  | ok a => exact h a

theorem AlikeButMemory.ite {p : Prop} [Decidable p] {x y x' y' : Checked State} (h : AlikeButMemory x y)
    (h' : AlikeButMemory x' y') : AlikeButMemory (if p then x else x') (if p then y else y') := by
  split
  · exact h
  · exact h'

section

variable {i : Instr} {s : State} {m : Memory}

theorem aluDivide_setMem (f : Byte → Byte → Byte) (a b : RegOperand) :
    AlikeButMemory (aluDivide f a b (s.setMem m)) (aluDivide f a b s) :=
  .bind fun _ => .bind fun rb => .ite (p := s.reg rb = 0) ⟨m, rfl⟩ ⟨m, rfl⟩

theorem jumpIf_setMem (cond : Byte → Bool) (n : RegOperand) :
    AlikeButMemory (jumpIf cond n (s.setMem m)) (jumpIf cond n s) := by
  refine .bind fun _ => ⟨m, congrArg Except.ok ?_⟩
  rw [setMem_fl]
  split <;> rfl

section

variable (h : (s.setMem m).memRead (s.reg spIndex) = s.memRead (s.reg spIndex))
include h

theorem popPointer_setMem (r : RegIndex) : popPointer (s.setMem m) r = popPointer s r := by
  simp only [popPointer, setMem_cfg, setMem_reg, h]

theorem handlePop_setMem (n : RegOperand) : AlikeButMemory (handlePop n (s.setMem m)) (handlePop n s) := by
  refine .bind fun r => ?_
  rw [popPointer_setMem h, setMem_reg, h]
  exact .bind fun _ => ⟨m, rfl⟩

theorem handleRet_setMem : AlikeButMemory (handleRet (s.setMem m)) (handleRet s) := by
  rw [handleRet, setMem_reg, h]
  exact .bind fun _ => ⟨m, rfl⟩

end

theorem handleLd_setMem {a b : RegOperand}
    (h : (s.setMem m).memRead (s.reg (namedReg b)) = s.memRead (s.reg (namedReg b))) :
    AlikeButMemory (handleLd a b (s.setMem m)) (handleLd a b s) := by
  refine ⟨m, withRegs_map rfl ?_⟩
  rw [setMem_reg, h]
  rfl

/-- A handler answers alike, but for the memory it leaves, in every memory that agrees on the cell it reads: a store
leaves another memory than `m`, the other instructions leave `m`. -/
theorem handler_setMem (h : ∀ a, cellRead i s = some a → m.read a.toNat = s.memRead a) :
    AlikeButMemory (handler i (s.setMem m)) (handler i s) := by
  cases i <;> simp only [handler]
  case ld => exact handleLd_setMem (h _ rfl)
  case pop => exact handlePop_setMem (h _ rfl) _
  case ret => exact handleRet_setMem (h _ rfl)
  case st => exact .bind fun _ => .bind fun _ => ⟨_, rfl⟩
  case push => exact .bind fun _ => .bind fun _ => ⟨_, rfl⟩
  case call => exact .bind fun _ => .bind fun _ => .bind fun _ => ⟨_, rfl⟩
  case nop | hlt | int | iret => exact ⟨m, rfl⟩
  case ldi | prn | pra | jmp | inc | dec | not => exact .bind fun _ => ⟨m, rfl⟩
  case cmp | add | sub | mul | and | or | xor | shl | shr => exact .bind fun _ => .bind fun _ => ⟨m, rfl⟩
  case div | mod => exact aluDivide_setMem _ _ _
  case jeq | jne | jgt | jlt | jle | jge => exact jumpIf_setMem _ _

/-- An instruction depends on no cell but the one it reads, but for the memory it leaves. -/
theorem exec_setMem {t : State} (ht : exec i s = .next t)
    (h : ∀ a, cellRead i s = some a → m.read a.toNat = s.memRead a) :
    ∃ m', exec i (s.setMem m) = .next (t.setMem m') := by
  obtain ⟨m', hm'⟩ := handler_setMem h
  obtain ⟨u, hu, rfl⟩ | ⟨c, hc, rfl⟩ := exec_next_iff.1 ht
  · exact ⟨m', exec_next_iff.2 (.inl ⟨u.setMem m', by rw [hm', hu]; rfl, (autoAdvance_setMem _ s u m m').symm⟩)⟩
  · exact ⟨m, exec_next_iff.2 (.inr ⟨c, by rw [hm', hc]; rfl, rfl⟩)⟩

end

/-- Only the cell an instruction writes can change. -/
theorem exec_memRead {i : Instr} {s t : State} {a : Byte} (h : exec i s = .next t) (ha : cellWritten i s ≠ some a) :
    t.memRead a = s.memRead a := by
  obtain ⟨hm, _⟩ | ⟨b, v, hb, hm⟩ := exec_mem h
  · rw [State.memRead, hm, State.memRead]
  · have hab : a ≠ b := fun hab => ha (hab ▸ hb)
    rw [State.memRead, hm]
    exact memRead_memWrite_ne s v hab

/-- Settles O21: the writes by the one write of an instruction's frame, the reads by its handler in another memory. -/
theorem memoryReachedIsTheTables : Obligations.MemoryReachedIsTheTables := by
  unfold Obligations.MemoryReachedIsTheTables
  refine ⟨fun i s t a => exec_memRead, fun i s t m ht h => ?_⟩
  obtain ⟨m', hm'⟩ := exec_setMem ht h
  exact ⟨t.setMem m', hm', rfl⟩

/-! ### A store and the fetches after it -/

theorem ofNat_eq_of_mod {x : Nat} {a : Byte} (h : x % 256 = a.toNat) : BitVec.ofNat 8 x = a :=
  BitVec.eq_of_toNat_eq (by rw [BitVec.toNat_ofNat, ← h])

/-- Every fetch that falls on a cell reads the byte the cell holds (R82, R84). -/
theorem fetchesSee_memRead (t : State) (a : Byte) : FetchesSee t a (t.memRead a) := by
  intro u hu
  have hread : u.memRead a = t.memRead a := by rw [State.memRead, hu, State.memRead]
  rw [← hread]
  refine ⟨?_, fun k => ?_⟩
  · rintro (h | ⟨hw, h⟩)
    · exact fetchOpcode_of_cell h
    · rw [fetchOpcode_ok (.inr hw), ofNat_eq_of_mod h]
  · rintro (h | ⟨hw, h⟩)
    · exact fetchOperand_of_cell h
    · rw [fetchOperand_ok (.inr hw), ofNat_eq_of_mod h]

/-- An instruction whose handler leaves `v` in cell `a` completes, and every later fetch of the cell sees `v`. -/
theorem completes_fetchesSee {i : Instr} {s u : State} {a v : Byte} (h : handler i s = .ok u) (hv : u.memRead a = v) :
    Completes i s fun t => FetchesSee t a v := by
  refine ⟨autoAdvance i.op s u, exec_next_iff.2 (.inl ⟨u, h, rfl⟩), ?_⟩
  rw [← hv, ← autoAdvance_memRead i.op s u a]
  exact fetchesSee_memRead _ a

section

variable {n : RegOperand} {s : State} {r : RegIndex} {sp : Byte} (hr : regIdx s.cfg.oob n = .ok r)
  (hsp : pushPointer s = .ok sp)
include hr hsp

theorem handlePush_of_ok :
    handlePush n s = .ok ((s.setReg spIndex sp).memWrite sp ((s.setReg spIndex sp).reg r)) := by
  rw [handlePush, withReg_of_ok hr, hsp]
  rfl

theorem handleCall_of_ok {ret : Byte} (hret : returnAddress s = .ok ret) :
    handleCall n s =
      .ok (((s.setReg spIndex sp).memWrite sp ret).jumpTo ((s.setReg spIndex sp).reg r)) := by
  rw [handleCall, withReg_of_ok hr, hret, hsp]
  rfl

end

/-- Settles O26: each store's handler leaves its byte in its cell, and a fetch of a cell reads what the cell holds. -/
theorem storeIsSeenByTheNextFetch : Obligations.StoreIsSeenByTheNextFetch := by
  unfold Obligations.StoreIsSeenByTheNextFetch
  refine ⟨fun a b s ra rb hs ha hb => ?_, fun n s r sp hs hr hsp => ?_, fun n s r sp ret hs hr hsp hret => ?_⟩
  · exact completes_fetchesSee (withRegs_of_ok ha hb _) (memRead_memWrite_same hs _ _)
  · refine completes_fetchesSee (handlePush_of_ok hr hsp) ?_
    rw [memRead_memWrite_same (s := s.setReg spIndex sp) hs, setReg_reg]
    rfl
  · exact completes_fetchesSee (handleCall_of_ok hr hsp hret)
      (memRead_memWrite_same (s := s.setReg spIndex sp) hs sp ret)

end Sys2Proof.Machine
end

section
/-! PROOFS. The encoding: the opcode map, the decoder and the encoder, the decoder against the fetch (R60 to R70). -/

namespace Sys2Proof

/-! ### The opcode map -/

/-- A byte is recognised as a mnemonic exactly when it is that mnemonic's row (R66). -/
theorem OpcodeMap.lookup_eq_some_iff {m : OpcodeMap} (hm : m.wf = true) {b : Byte} {op : Op} :
    m.lookup b = some op ↔ m.byteOf op = b :=
  ⟨byteOf_of_lookup, fun h => h ▸ lookup_byteOf hm op⟩

/-- A byte is recognised as nothing exactly when it is no row (R68). -/
theorem OpcodeMap.lookup_eq_none_iff {m : OpcodeMap} {b : Byte} : m.lookup b = none ↔ ∀ op, m.byteOf op ≠ b := by
  simp [OpcodeMap.lookup, Op.mem_all]

/-- Settles O9: the lookup finds the one row equal to the byte, and R65 fixes the fields of a row. -/
theorem wholeOpcodeByteIsMatched : Obligations.WholeOpcodeByteIsMatched := by
  unfold Obligations.WholeOpcodeByteIsMatched
  refine fun m b hm => ⟨fun op => OpcodeMap.lookup_eq_some_iff hm, OpcodeMap.lookup_eq_none_iff, fun op hop => ?_⟩
  obtain ⟨hN, hA, hC, _⟩ := OpcodeMap.fields_of_wf hm op
  rw [← OpcodeMap.byteOf_of_lookup hop]
  exact ⟨hN, hA, hC⟩

/-- The byte values that are recognised are the 34 rows, each once. -/
theorem OpcodeMap.recognised_perm {m : OpcodeMap} (hm : m.wf = true) :
    ((List.range 256).filter fun b => !(m.lookup (BitVec.ofNat 8 b)).isNone).Perm
      (Op.all.map fun op => (m.byteOf op).toNat) := by
  have hinj : Function.Injective fun op => (m.byteOf op).toNat := fun op op' h =>
    Option.some_inj.1 <| by rw [← lookup_byteOf hm op, BitVec.eq_of_toNat_eq h, lookup_byteOf hm op']
  have hall : Op.all.Nodup := by decide
  refine (List.perm_ext_iff_of_nodup (List.nodup_range.filter _) (hall.map hinj)).2 fun b => ?_
  simp only [List.mem_filter, List.mem_range, List.mem_map, Bool.not_eq_true', Option.isNone_eq_false_iff,
    Option.isSome_iff_exists, lookup_eq_some_iff hm]
  constructor
  · rintro ⟨hb, op, hop⟩
    exact ⟨op, op.mem_all, by rw [hop, BitVec.toNat_ofNat, Nat.mod_eq_of_lt hb]⟩
  · rintro ⟨op, _, rfl⟩
    exact ⟨BitVec.isLt _, op, by rw [BitVec.ofNat_toNat, BitVec.setWidth_eq]⟩

/-- Every map that meets R65 leaves 256 - 34 byte values unrecognised (R68). -/
theorem OpcodeMap.length_unrecognised {m : OpcodeMap} (hm : m.wf = true) :
    ((List.range 256).filter fun b => (m.lookup (BitVec.ofNat 8 b)).isNone).length = 222 := by
  have hsum := List.length_eq_length_filter_add (l := List.range 256) fun b => (m.lookup (BitVec.ofNat 8 b)).isNone
  have hrows : (Op.all.map fun op => (m.byteOf op).toNat).length = 34 := List.length_map ..
  rw [(recognised_perm hm).length_eq, hrows, List.length_range] at hsum
  omega

/-- Settles O5: the constraints of the default map by evaluation, the count from them. -/
theorem standardMapMeetsItsConstraints : Obligations.StandardMapMeetsItsConstraints := by
  unfold Obligations.StandardMapMeetsItsConstraints
  have hm : OpcodeMap.standard.wf = true := by decide
  exact ⟨hm, OpcodeMap.length_unrecognised hm⟩

/-- Settles O6: the decoder evaluates each word. -/
theorem writtenWordsDecode : Obligations.WrittenWordsDecode := by
  unfold Obligations.WrittenWordsDecode
  exact ⟨rfl, rfl, rfl, rfl, rfl, rfl, rfl, rfl⟩

/-! ### The decoder and the encoder -/

/-- The operand bytes of the instruction a mnemonic makes are as many of the two as it has (R43, R60). -/
theorem Op.operandBytes_instr (op : Op) (opa opb : Byte) :
    (op.instr opa opb).operandBytes = [opa, opb].take op.operandCount := by
  cases op <;> rfl

theorem Instr.length_operandBytes (i : Instr) : i.operandBytes.length = i.op.operandCount := by
  cases i <;> rfl

/-- The operand bytes of an instruction give it back, whatever follows them (R43). -/
theorem decodeOperands_operandBytes (i : Instr) (rest : List Byte) :
    decodeOperands i.op (i.operandBytes ++ rest) = .ok (i, rest) := by
  cases i <;> rfl

/-- What a mnemonic makes of bytes is an instruction of that mnemonic, and the bytes begin with its operand bytes. -/
theorem decodeOperands_ok_iff {op : Op} {bytes rest : List Byte} {i : Instr} :
    decodeOperands op bytes = .ok (i, rest) ↔ op = i.op ∧ bytes = i.operandBytes ++ rest := by
  constructor
  · intro h
    obtain ⟨hN, rfl, rfl⟩ | ⟨hN, opa, rfl, rfl⟩ | ⟨hN, opa, opb, rfl, rfl⟩ := decodeOperands_ok h
    all_goals
      rw [Op.instr_op, Op.operandBytes_instr, hN]
      exact ⟨rfl, rfl⟩
  · rintro ⟨rfl, rfl⟩
    exact decodeOperands_operandBytes i rest

/-- What the decoder reads: an opcode byte recognised as the instruction's mnemonic, then its operand bytes. -/
theorem decode_cons_ok_iff {m : OpcodeMap} {ir : Byte} {bytes rest : List Byte} {i : Instr} :
    decode m (ir :: bytes) = .ok (i, rest) ↔ m.lookup ir = some i.op ∧ bytes = i.operandBytes ++ rest := by
  cases h : m.lookup ir with
  | none => simp [decode, h]
  | some op => simp [decode, h, decodeOperands_ok_iff]

/-- Settles O7: the opcode byte is recognised as the mnemonic's row, and the operand bytes give the instruction back. -/
theorem decodeOfEncodeIsTheInstruction : Obligations.DecodeOfEncodeIsTheInstruction := by
  unfold Obligations.DecodeOfEncodeIsTheInstruction
  exact fun m i rest hm => decode_cons_ok_iff.2 ⟨OpcodeMap.lookup_byteOf hm i.op, rfl⟩

/-- Settles O8: a recognised byte is its mnemonic's row, and the bytes after it begin with the operand bytes. -/
theorem encodeOfDecodeIsTheBytes : Obligations.EncodeOfDecodeIsTheBytes := by
  unfold Obligations.EncodeOfDecodeIsTheBytes
  intro m bytes rest i h
  cases bytes with
  | nil => cases h
  | cons ir bytes =>
    obtain ⟨hop, rfl⟩ := decode_cons_ok_iff.1 h
    rw [encode, OpcodeMap.byteOf_of_lookup hop, List.cons_append]

/-- The decoded bytes are as many as bits 7:6 of the opcode byte and one more, at most three (R60, R61). -/
theorem length_of_decode_cons {m : OpcodeMap} (hm : m.wf = true) {ir : Byte} {bytes rest : List Byte} {i : Instr}
    (h : decode m (ir :: bytes) = .ok (i, rest)) :
    (ir :: bytes).length = 1 + opcodeN ir + rest.length ∧ opcodeN ir ≤ 2 := by
  obtain ⟨hop, rfl⟩ := decode_cons_ok_iff.1 h
  obtain ⟨hN, _⟩ := OpcodeMap.fields_of_wf hm i.op
  rw [OpcodeMap.byteOf_of_lookup hop] at hN
  rw [hN, List.length_cons, List.length_append, i.length_operandBytes]
  exact ⟨by omega, i.op.operandCount_le_two⟩

/-- The opcode byte alone gives the mnemonic (R66). -/
theorem op_eq_of_decode_cons {m : OpcodeMap} {ir : Byte} {bytes bytes' rest rest' : List Byte} {i j : Instr}
    (hi : decode m (ir :: bytes) = .ok (i, rest)) (hj : decode m (ir :: bytes') = .ok (j, rest')) : j.op = i.op := by
  obtain ⟨hi, _⟩ := decode_cons_ok_iff.1 hi
  obtain ⟨hj, _⟩ := decode_cons_ok_iff.1 hj
  exact Option.some_inj.1 (hj.symm.trans hi)

namespace Machine

/-! ### The decoder against the fetch -/

section

variable {s : State} {ir : Byte} (hir : fetchOpcode s = .ok ir)
include hir

/-- A fetched byte that is no row is an illegal instruction (R68). -/
theorem fetch_of_lookup_none (h : s.cfg.opcodeMap.lookup ir = none) :
    fetch s = .error (some ir, .illegalInstruction) := by
  simp [fetch, hir, h]

/-- INT and IRET are illegal instructions by their opcode byte alone (R92, R93). -/
theorem fetch_of_int_or_iret {op : Op} (h : s.cfg.opcodeMap.lookup ir = some op) (hop : op = .int ∨ op = .iret) :
    fetch s = .error (some ir, .illegalInstruction) := by
  simp [fetch, hir, h, hop]

/-- A row that is neither INT nor IRET, with its operand bytes in range, is fetched (R80). -/
theorem fetch_of_fetchOperands {op : Op} (h : s.cfg.opcodeMap.lookup ir = some op) (hop : ¬(op = .int ∨ op = .iret))
    {opa opb : Byte} (hops : fetchOperands s op.operandCount = .ok (opa, opb)) : fetch s = .ok (op.instr opa opb) := by
  simp [fetch, hir, h, hop, hops]

end

/-- The operand fetches read from the cells at the pc what the decoder reads from the bytes at the pc (R84). -/
theorem fetchOperands_of_decodeOperands {s : State} {ir : Byte} {bytes rest : List Byte} {op : Op} {i : Instr}
    (hc : codeBytes s = ir :: bytes) (h : decodeOperands op bytes = .ok (i, rest)) :
    ∃ opa opb, fetchOperands s op.operandCount = .ok (opa, opb) ∧ i = op.instr opa opb := by
  obtain ⟨_, h1, h2⟩ := codeBytes_cons hc
  obtain ⟨hN, _, rfl⟩ | ⟨hN, opa, hb, rfl⟩ | ⟨hN, opa, opb, hb, rfl⟩ := decodeOperands_ok h
  · exact ⟨0, 0, by rw [hN]; rfl, rfl⟩
  · exact ⟨opa, 0, by rw [hN, fetchOperands_one, h1 _ _ hb]; rfl, rfl⟩
  · exact ⟨opa, opb, by rw [hN, fetchOperands_two, h1 _ _ hb, h2 _ _ _ hb]; rfl, rfl⟩

/-- Performing INT or IRET is an illegal instruction (R92, R93). -/
theorem exec_of_int_or_iret {i : Instr} (h : i.op = .int ∨ i.op = .iret) (s : State) :
    exec i s = .next (s.raise (some (s.cfg.opcodeMap.byteOf i.op)) .illegalInstruction) := by
  cases i <;> simp [Instr.op] at h
  case int => rfl
  case iret => rfl

/-- The step of a running machine is the instruction the bytes at its pc decode to, performed (R80). -/
theorem step_of_decode_codeBytes {s : State} {i : Instr} {rest : List Byte} (hs : s.status = .running)
    (h : decode s.cfg.opcodeMap (codeBytes s) = .ok (i, rest)) : step s = exec i s := by
  cases hc : codeBytes s with
  | nil => rw [hc] at h; cases h
  | cons ir bytes =>
    rw [hc] at h
    obtain ⟨hop, hbytes⟩ := decode_cons_ok_iff.1 h
    obtain ⟨hir, _⟩ := codeBytes_cons hc
    by_cases hint : i.op = .int ∨ i.op = .iret
    · rw [step_of_fetch_error hs (fetch_of_int_or_iret hir hop hint), exec_of_int_or_iret hint,
        OpcodeMap.byteOf_of_lookup hop]
    · obtain ⟨opa, opb, hops, hi⟩ := fetchOperands_of_decodeOperands hc (decodeOperands_ok_iff.2 ⟨rfl, hbytes⟩)
      rw [step_of_fetch_ok hs (fetch_of_fetchOperands hir hop hint hops), ← hi]

/-- After a JMP the byte in the cell jumped to is fetched as the opcode byte (R70, R121). -/
theorem fetchOpcode_jumpTo (s : State) (v : Byte) : fetchOpcode (s.jumpTo v) = .ok (s.memRead v) := by
  rw [fetchOpcode_of_cell (jumpTo_pc_toNat s v), jumpTo_memRead]

/-- The instruction fetched after a JMP is of the mnemonic whose row stands in the cell jumped to (R66, R70). -/
theorem byteOf_of_fetch_jumpTo {s : State} {v : Byte} {i : Instr} (h : fetch (s.jumpTo v) = .ok i) :
    s.cfg.opcodeMap.byteOf i.op = s.memRead v := by
  obtain ⟨hop, _⟩ := fetch_ok h
  rw [jumpTo_pc_toNat, BitVec.ofNat_toNat, BitVec.setWidth_eq] at hop
  exact OpcodeMap.byteOf_of_lookup hop

/-- Settles O53: the decoder's reading of the opcode byte, the step as the decoded instruction, and JMP's target byte
fetched as the opcode. -/
theorem bytesDecodeAlikeInEveryState : Obligations.BytesDecodeAlikeInEveryState := by
  unfold Obligations.BytesDecodeAlikeInEveryState
  refine ⟨fun m ir bytes rest i hm h => ?_, fun s s' i rest hs hs' hmap hbytes h => ?_, fun n s t r hr hs ht => ?_⟩
  · obtain ⟨hlen, hN⟩ := length_of_decode_cons hm h
    exact ⟨hlen, hN, fun _ _ _ => op_eq_of_decode_cons h⟩
  · exact ⟨step_of_decode_codeBytes hs h, step_of_decode_codeBytes hs' (by rw [hmap, hbytes, h])⟩
  · rw [exec_jmp_of_ok hr] at ht
    cases ht
    have hir := fetchOpcode_jumpTo s (s.reg r)
    exact ⟨hir, fun hnone => step_of_fetch_error hs (fetch_of_lookup_none hir hnone),
      fun i hi => ⟨byteOf_of_fetch_jumpTo hi, step_of_fetch_ok hs hi⟩⟩

end Machine

end Sys2Proof
end

section
/-! PROOFS. The pc after an instruction (R86, R113, R114, R121, R122). -/

namespace Sys2Proof.Machine

/-! ### The auto-advance -/

/-- A conditional jump sets the pc itself (R61, R86). -/
theorem setsPc_of_isConditionalJump {op : Op} (h : op.isConditionalJump = true) : op.setsPc = true := by
  revert h
  cases op <;> decide

/-- An instruction that does not set the pc leaves it at the byte after its last operand byte (R86). -/
theorem exec_pc_of_not_setsPc {i : Instr} {s t : State} (h : exec i s = .next t) (ht : t.status ≠ .faulted)
    (hi : i.op.setsPc = false) : t.pc = nextPc s.cfg.oob (s.pc.toNat + 1 + i.op.operandCount) := by
  obtain ⟨u, _, rfl⟩ := exec_of_not_faulted h ht
  rw [autoAdvance_pc, hi]
  rfl

/-- An instruction that sets the pc leaves its handler's state as it is. -/
theorem exec_of_setsPc {i : Instr} {s t : State} (h : exec i s = .next t) (ht : t.status ≠ .faulted)
    (hi : i.op.setsPc = true) : handler i s = .ok t := by
  obtain ⟨u, hu, rfl⟩ := exec_of_not_faulted h ht
  rwa [autoAdvance, if_pos hi]

/-! ### The instructions that set the pc -/

theorem exec_jmp_pc {n : RegOperand} {s t : State} (h : exec (.jmp n) s = .next t) (ht : t.status ≠ .faulted) :
    t.pc.toNat = (s.reg (namedReg n)).toNat := by
  obtain ⟨_, rfl⟩ := handleJmp_ok.1 (exec_of_setsPc h ht rfl)
  exact jumpTo_pc_toNat _ _

/-- CALL jumps to what its register holds after the push (R113, D20). -/
theorem exec_call_pc {n : RegOperand} {s t : State} (h : exec (.call n) s = .next t) (ht : t.status ≠ .faulted) :
    t.pc.toNat = (t.reg (namedReg n)).toNat := by
  obtain ⟨_, ret, _, sp, _, rfl⟩ := handleCall_ok.1 (exec_of_setsPc h ht rfl)
  rw [jumpTo_pc_toNat, jumpTo_reg, memWrite_reg]

/-- The handler of a conditional jump is `jumpIf` under its condition of R129 and its one register operand (R122). -/
theorem handler_of_isConditionalJump {i : Instr} (hi : i.op.isConditionalJump = true) (s : State) :
    ∃ n, i.regOperands = [n] ∧ handler i s = jumpIf (jumpTaken i) n s := by
  cases i
  case jeq n | jne n | jgt n | jlt n | jle n | jge n => exact ⟨n, rfl, rfl⟩
  all_goals cases hi

/-- A conditional jump goes to its register if it is taken, and else past its two bytes (R122). -/
theorem exec_conditionalJump_pc {i : Instr} {s t : State} (h : exec i s = .next t) (ht : t.status ≠ .faulted)
    (hi : i.op.isConditionalJump = true) :
    ∃ n ∈ i.regOperands, if jumpTaken i s.fl then t.pc.toNat = (s.reg (namedReg n)).toNat
      else t.pc = nextPc s.cfg.oob (s.pc.toNat + 2) := by
  obtain ⟨n, hn, hh⟩ := handler_of_isConditionalJump hi s
  obtain ⟨_, rfl⟩ := jumpIf_ok.1 (hh ▸ exec_of_setsPc h ht (setsPc_of_isConditionalJump hi))
  refine ⟨n, by simp [hn], ?_⟩
  split
  · exact jumpTo_pc_toNat _ _
  · rfl

/-- Settles O11: the auto-advance for an instruction that does not set the pc, the handler's own rule for the others. -/
theorem autoAdvanceFollowsTheDispatcher : Obligations.AutoAdvanceFollowsTheDispatcher := by
  unfold Obligations.AutoAdvanceFollowsTheDispatcher
  refine ⟨fun v hv => by rw [nextPc_fault_toNat, Nat.mod_eq_of_lt hv], nextPc_wrap_toNat, fun i s t _ h ht =>
    ⟨exec_pc_of_not_setsPc h ht, fun hi hj => ?_, ?_, ?_, ?_, fun hi hj => ?_⟩⟩
  · obtain ⟨n, _, hpc⟩ := exec_conditionalJump_pc h ht hi
    simpa [hj] using hpc
  · rintro n rfl
    exact exec_jmp_pc h ht
  · rintro n rfl
    exact exec_call_pc h ht
  · rintro rfl
    exact exec_ret_pc h ht
  · obtain ⟨n, hn, hpc⟩ := exec_conditionalJump_pc h ht hi
    exact ⟨n, hn, by simpa [hj] using hpc⟩

end Sys2Proof.Machine
end

section
/-! PROOFS. A register operand byte above 7 (R62, R85). -/

namespace Sys2Proof.Machine

/-- The first of a form's register operand bytes that names no register (R85, R174). -/
def firstBadOperand (ns : List RegOperand) : Option RegOperand := ns.find? fun m => !m.wellFormed

theorem regIdx_of_bad {m : RegOperand} (h : m.wellFormed = false) :
    regIdx .fault m = .error (.outOfRange .regIndex m.toNat) := by
  have hm : 7 < m.toNat := by simpa [RegOperand.wellFormed] using h
  exact regIdx_error_iff.2 ⟨rfl, hm, rfl⟩

section

variable {s : State} {n : RegOperand} (hp : s.cfg.oob = .fault)
include hp

theorem withReg_of_firstBadOperand {a : RegOperand} (h : firstBadOperand [a] = some n)
    (f : RegIndex → Checked State) : withReg s a f = .error (.outOfRange .regIndex n.toNat) := by
  obtain ⟨ha, rfl⟩ : a.wellFormed = false ∧ a = n := by simpa [firstBadOperand] using h
  rw [withReg, hp, regIdx_of_bad ha]
  rfl

theorem withRegs_of_firstBadOperand {a b : RegOperand} (h : firstBadOperand [a, b] = some n)
    (f : RegIndex → RegIndex → Checked State) : withRegs s a b f = .error (.outOfRange .regIndex n.toNat) := by
  change withReg s a (fun ra => withReg s b (f ra)) = _
  cases ha : a.wellFormed with
  | false => exact withReg_of_firstBadOperand hp (by simpa [firstBadOperand, ha] using h) _
  | true =>
    have hle : a.toNat ≤ 7 := by simpa [RegOperand.wellFormed] using ha
    rw [withReg_of_ok (regIdx_of_le hle _)]
    exact withReg_of_firstBadOperand hp (by simpa [firstBadOperand, ha] using h) _

/-- Every handler but INT's resolves its register operands before anything else, the first one first. -/
theorem handler_of_firstBadOperand {i : Instr} (hi : i.op ≠ .int) (h : firstBadOperand i.regOperands = some n) :
    handler i s = .error (.outOfRange .regIndex n.toNat) := by
  cases i
  case nop | hlt | ret | iret => cases h
  case int => exact absurd rfl hi
  case ldi | push | pop | prn | pra | call | jmp | jeq | jne | jgt | jlt | jle | jge | inc | dec | not =>
    exact withReg_of_firstBadOperand hp h _
  case ld | st | cmp | add | sub | mul | div | mod | and | or | xor | shl | shr =>
    exact withRegs_of_firstBadOperand hp h _

end

/-- An instruction whose handler raises a fault raises it (R172). -/
theorem raises_of_handler {i : Instr} {s : State} {c : Cause} (h : handler i s = .error c) : Raises i s c :=
  exec_next_iff.2 (.inr ⟨c, h, rfl⟩)

/-- Settles O14: the handlers resolve their operands first, and `RegIdx` names what its two policies say. -/
theorem registerOperandAboveSevenRaises : Obligations.RegisterOperandAboveSevenRaises := by
  unfold Obligations.RegisterOperandAboveSevenRaises
  refine ⟨fun i s n hp hi h => raises_of_handler (handler_of_firstBadOperand hp hi h),
    fun n => ⟨regIdx_ok_iff.2 ⟨.inl rfl, rfl⟩, rfl⟩, fun n hn => ⟨regIdx_of_le hn _, ?_⟩⟩
  exact Nat.mod_eq_of_lt (by omega)

end Sys2Proof.Machine
end

section
/-! PROOFS. A run is the step repeated (R81, R87). -/

namespace Sys2Proof.Machine

theorem core_run_of_step {s t : State} (h : step s = .next t) (k : Nat) :
    Host.Core.run core (k + 1) s = Host.Core.run core k t := by
  have hcore : core.step s = .next t := h
  simp only [Host.Core.run, hcore]

/-- The host's machine stays in a stopped state (R87). -/
theorem core_run_of_stopped {s : State} (hs : s.status ≠ .running) (k : Nat) : Host.Core.run core k s = .next s := by
  induction k with
  | zero => rfl
  | succ k ih => rw [core_run_of_step (step_of_stopped hs), ih]

/-- Settles O18, by induction on the fuel: a running machine takes the same step in both, a stopped one stays. -/
theorem runIsRepeatedStep : Obligations.RunIsRepeatedStep := by
  unfold Obligations.RunIsRepeatedStep
  intro k
  induction k with
  | zero => exact fun s => rfl
  | succ k ih =>
    intro s
    by_cases hs : s.status = .running
    · obtain ⟨t, ht⟩ := step_total s
      rw [runFor_of_running hs ht, core_run_of_step ht, ih]
    · exact (runFor_of_stopped hs).trans (core_run_of_stopped hs _).symm

end Sys2Proof.Machine
end

section
/-! PROOFS. The bytes at the pc, and the step that INT and IRET end (R80, R82, R84, R92, R93). -/

namespace Sys2Proof.Machine

section

variable {s : State}

theorem codeBytes_three (h : s.pc.toNat ≤ 253 ∨ s.cfg.oob = .wrap) :
    codeBytes s = [s.memRead (BitVec.ofNat 8 s.pc.toNat), s.memRead (BitVec.ofNat 8 (s.pc.toNat + 1)),
      s.memRead (BitVec.ofNat 8 (s.pc.toNat + 2))] := by
  rw [codeBytes, fetchOpcode_ok (h.imp_left (by omega)), fetchOperand_ok (h.imp_left (by omega)),
    fetchOperand_ok (h.imp_left (by omega))]

theorem codeBytes_two (hp : s.cfg.oob = .fault) (h : s.pc = 254) :
    codeBytes s = [s.memRead 254, s.memRead 255] := by
  have hpc : s.pc.toNat = 254 := by rw [h]; rfl
  rw [codeBytes, fetchOpcode_of_cell (a := 254) hpc, fetchOperand_of_cell (k := 1) (a := 255) (by rw [hpc]; rfl),
    fetchOperand_error hp (by omega)]

theorem codeBytes_one (hp : s.cfg.oob = .fault) (h : s.pc = 255) : codeBytes s = [s.memRead 255] := by
  have hpc : s.pc.toNat = 255 := by rw [h]; rfl
  rw [codeBytes, fetchOpcode_of_cell (a := 255) hpc, fetchOperand_error hp (by omega)]

end

/-- Settles O12: the step by the decoder's agreement with the fetch, the bytes by what each fetch reads. -/
theorem stepPerformsTheDecodedInstruction : Obligations.StepPerformsTheDecodedInstruction := by
  unfold Obligations.StepPerformsTheDecodedInstruction
  exact ⟨fun s i rest => step_of_decode_codeBytes, fun s => codeBytes_three, fun s => codeBytes_two,
    fun s => codeBytes_one⟩

/-- The row of INT or IRET in the cell at the pc ends the step, whatever follows it (R92, R93, D10). -/
theorem stepRaises_of_int_or_iret {s : State} {op : Op} (hop : op = .int ∨ op = .iret) (hs : s.status = .running)
    (hm : s.cfg.opcodeMap.wf = true) (hpc : s.pc.toNat ≤ 255)
    (h : s.memRead (BitVec.ofNat 8 s.pc.toNat) = s.cfg.opcodeMap.byteOf op) :
    StepRaises s (some (s.cfg.opcodeMap.byteOf op)) .illegalInstruction := by
  have hir : fetchOpcode s = .ok (s.cfg.opcodeMap.byteOf op) := h ▸ fetchOpcode_ok (.inl hpc)
  exact step_of_fetch_error hs (fetch_of_int_or_iret hir (OpcodeMap.lookup_byteOf hm op) hop)

/-- Settles O29: the handlers of INT and IRET only raise, and the fetch raises from the opcode byte. -/
theorem intAndIretRaiseIllegalInstruction : Obligations.IntAndIretRaiseIllegalInstruction := by
  unfold Obligations.IntAndIretRaiseIllegalInstruction
  exact ⟨fun n s => ⟨exec_of_int_or_iret (.inl rfl) s, exec_of_int_or_iret (.inr rfl) s⟩, fun s hs hm hpc =>
    ⟨stepRaises_of_int_or_iret (.inl rfl) hs hm hpc, stepRaises_of_int_or_iret (.inr rfl) hs hm hpc⟩⟩

end Sys2Proof.Machine
end

section
/-! PROOFS. NOP, HLT, PRN and PRA complete (R88 to R91). -/

namespace Sys2Proof.Machine

/-- An instruction whose handler answers `u` completes in `u`, advanced. -/
theorem completes_of_handler {i : Instr} {s u : State} {post : State → Prop} (h : handler i s = .ok u)
    (hpost : post (autoAdvance i.op s u)) : Completes i s post :=
  ⟨_, exec_next_iff.2 (.inl ⟨u, h, rfl⟩), hpost⟩

section

variable {regs : List RegIndex} {cells : List Byte} {s u : State}

theorem KeepsStorage.of_eq (hregs : u.regs = s.regs) (hmem : u.mem = s.mem) (hie : u.ie = s.ie)
    (hcfg : u.cfg = s.cfg) : KeepsStorage regs cells s u where
  reg_kept r _ := by rw [State.reg, hregs, State.reg]
  cell_kept a _ := by rw [State.memRead, hmem, State.memRead]
  ie_kept := hie
  cfg_kept := hcfg

theorem Keeps.refl (s : State) : Keeps regs cells s s where
  toKeepsStorage := .of_eq rfl rfl rfl rfl
  fl_kept := rfl
  out_kept := rfl
  status_kept := rfl
  fault_kept := rfl

/-- The auto-advance keeps all storage. -/
theorem KeepsStorage.autoAdvance (h : KeepsStorage regs cells s u) (op : Op) :
    KeepsStorage regs cells s (autoAdvance op s u) where
  reg_kept r hr := by rw [autoAdvance_reg, h.reg_kept r hr]
  cell_kept a ha := by rw [autoAdvance_memRead, h.cell_kept a ha]
  ie_kept := by rw [autoAdvance_ie, h.ie_kept]
  cfg_kept := by rw [autoAdvance_cfg, h.cfg_kept]

/-- The auto-advance keeps everything but the pc. -/
theorem Keeps.autoAdvance (h : Keeps regs cells s u) (op : Op) : Keeps regs cells s (autoAdvance op s u) where
  toKeepsStorage := h.toKeepsStorage.autoAdvance op
  fl_kept := by rw [autoAdvance_fl, h.fl_kept]
  out_kept := by rw [autoAdvance_out, h.out_kept]
  status_kept := by rw [autoAdvance_status, h.status_kept]
  fault_kept := by rw [autoAdvance_fault, h.fault_kept]

end

/-- Settles O27: NOP's handler answers the state, HLT's the halted state, and the auto-advance moves the pc by one. -/
theorem nopAndHltComplete : Obligations.NopAndHltComplete := by
  unfold Obligations.NopAndHltComplete
  refine fun s => ⟨completes_of_handler (handleNop_ok.2 rfl) ⟨(Keeps.refl s).autoAdvance _, rfl⟩,
    completes_of_handler (handleHlt_ok.2 rfl) ⟨KeepsStorage.autoAdvance ?_ _, rfl, rfl, rfl, rfl, rfl⟩⟩
  exact .of_eq rfl rfl rfl rfl

/-- A one-register instruction whose handler appends an event changes nothing else but the pc. -/
theorem completes_of_emit {i : Instr} {s : State} {k : EventKind} {v : Byte} (h : handler i s = .ok (s.emit k v))
    (hpc : i.op.setsPc = false) (hN : i.op.operandCount = 1) :
    Completes i s fun t => KeepsStorage [] [] s t ∧ t.fl = s.fl ∧ t.status = s.status ∧ t.fault = s.fault ∧
      t.out = s.out ++ [⟨k, v⟩] ∧ t.pc = nextPc s.cfg.oob (s.pc.toNat + 2) := by
  have hstorage : KeepsStorage [] [] s (s.emit k v) := .of_eq rfl rfl rfl rfl
  exact completes_of_handler h ⟨hstorage.autoAdvance _, by simp, by simp, by simp, by simp,
    by simp [autoAdvance_pc, hpc, hN]⟩

/-- Settles O28: with its operand resolved, each handler appends its event. -/
theorem printsAppendTheRegister : Obligations.PrintsAppendTheRegister := by
  unfold Obligations.PrintsAppendTheRegister
  exact fun n s r hr =>
    ⟨completes_of_emit (withReg_of_ok hr _) rfl rfl, completes_of_emit (withReg_of_ok hr _) rfl rfl⟩

end Sys2Proof.Machine
end

section
/-! PROOFS. What the host shows of an event (R36, R90, R91). -/

namespace Sys2Proof.Machine

theorem toNat_ofNat_of_ascii {n : Nat} (h : n < 128) : (Char.ofNat n).toNat = n := by
  have hv : n.isValidChar := .inl (by omega)
  rw [Char.toNat_ofNat, if_pos hv]

theorem decimalDigit_toNat {d : Nat} (h : d < 10) : (decimalDigit d).toNat = 48 + d :=
  toNat_ofNat_of_ascii (by omega)

/-- Only 0 has the digit `0`. -/
theorem eq_zero_of_decimalDigit {d : Nat} (hd : d < 10) (h : decimalDigit d = '0') : d = 0 := by
  have h48 := decimalDigit_toNat hd
  rw [h] at h48
  exact (Nat.add_left_cancel h48).symm

/-- `ds` are the decimal digits of `n`, the highest first, without a leading zero (D30). -/
structure IsDecimal (ds : List Nat) (n : Nat) : Prop where
  ne_nil : ds ≠ []
  lt_ten : ∀ d ∈ ds, d < 10
  value : ds.foldl (fun n d => 10 * n + d) 0 = n
  no_leading_zero : ds.head? = some 0 → ds = [0]

/-- The numeral of a byte is made of its decimal digits: three, two or one of them by the byte's size. -/
theorem decimal_eq_map (v : Byte) : ∃ ds, decimal v = ds.map decimalDigit ∧ IsDecimal ds v.toNat := by
  have hv := byte_toNat_lt v
  by_cases h100 : 100 ≤ v.toNat
  · refine ⟨[v.toNat / 100, v.toNat / 10 % 10, v.toNat % 10], by simp [decimal, h100], by simp, ?_, ?_, ?_⟩
    all_goals simp; omega
  · by_cases h10 : 10 ≤ v.toNat
    · refine ⟨[v.toNat / 10, v.toNat % 10], by simp [decimal, h100, h10], by simp, ?_, ?_, ?_⟩
      all_goals simp; omega
    · exact ⟨[v.toNat], by simp [decimal, h100, h10], by simp, by simp; omega, by simp, by simp⟩

/-- Reading digits as characters gives the number that the digits give. -/
theorem foldl_map_decimalDigit {ds : List Nat} (h : ∀ d ∈ ds, d < 10) (n : Nat) :
    (ds.map decimalDigit).foldl (fun n c => 10 * n + (c.toNat - 48)) n = ds.foldl (fun n d => 10 * n + d) n := by
  induction ds generalizing n with
  | nil => rfl
  | cons d ds ih =>
    obtain ⟨hd, hds⟩ := List.forall_mem_cons.1 h
    rw [List.map_cons, List.foldl_cons, List.foldl_cons, decimalDigit_toNat hd, Nat.add_sub_cancel_left, ih hds]

/-- Settles O30: the numeral by the byte's decimal digits, the character by the range of ASCII. -/
theorem printedFormsAreNumeralAndCharacter : Obligations.PrintedFormsAreNumeralAndCharacter := by
  unfold Obligations.PrintedFormsAreNumeralAndCharacter
  refine fun v => ⟨?_, fun hv => ⟨Char.ofNat v.toNat, by simp [Event.render, hv], toNat_ofNat_of_ascii hv⟩⟩
  obtain ⟨ds, hds, hne, hlt, hval, hzero⟩ := decimal_eq_map v
  refine ⟨decimal v, rfl, ?_⟩
  rw [hds]
  refine ⟨by simpa using hne, fun c hc => ?_, (foldl_map_decimalDigit hlt 0).trans hval, fun h0 => ?_⟩
  · obtain ⟨d, hd, rfl⟩ := List.mem_map.1 hc
    have := hlt d hd
    rw [decimalDigit_toNat this]
    omega
  · rw [List.head?_map] at h0
    obtain ⟨d, hd, h0⟩ := Option.map_eq_some_iff.1 h0
    obtain rfl := eq_zero_of_decimalDigit (hlt d (List.mem_of_head? hd)) h0
    rw [hzero hd]
    rfl

end Sys2Proof.Machine
end

section
/-! PROOFS. LDI, LD and ST, and the frames of one register write and of one store (R100 to R102). -/

namespace Sys2Proof.Machine

/-- Writing a register keeps everything else. -/
theorem Keeps.setReg (s : State) (r : RegIndex) (v : Byte) : Keeps [r] [] s (s.setReg r v) where
  reg_kept _ hq := setReg_reg_of_ne s r v (List.ne_of_not_mem_cons hq)
  cell_kept _ _ := rfl
  ie_kept := rfl
  cfg_kept := rfl
  fl_kept := rfl
  out_kept := rfl
  status_kept := rfl
  fault_kept := rfl

/-- Storing to a cell keeps everything else. -/
theorem Keeps.memWrite (s : State) (a v : Byte) : Keeps [] [a] s (s.memWrite a v) where
  reg_kept _ _ := rfl
  cell_kept _ hb := memRead_memWrite_ne s v (List.ne_of_not_mem_cons hb)
  ie_kept := rfl
  cfg_kept := rfl
  fl_kept := rfl
  out_kept := rfl
  status_kept := rfl
  fault_kept := rfl

theorem autoAdvance_pc_of_not_setsPc {op : Op} (h : op.setsPc = false) (s u : State) :
    (autoAdvance op s u).pc = nextPc s.cfg.oob (s.pc.toNat + 1 + op.operandCount) := by
  simp [autoAdvance_pc, h]

/-- An instruction whose handler writes one register changes nothing else but the pc, which passes its bytes (R86). -/
theorem completes_of_setReg {i : Instr} {s : State} {r : RegIndex} {v : Byte}
    (h : handler i s = .ok (s.setReg r v)) (hpc : i.op.setsPc = false) :
    Completes i s fun t => Keeps [r] [] s t ∧ t.reg r = v ∧
      t.pc = nextPc s.cfg.oob (s.pc.toNat + 1 + i.op.operandCount) :=
  completes_of_handler h ⟨(Keeps.setReg s r v).autoAdvance _,
    by rw [autoAdvance_reg, setReg_reg_same], autoAdvance_pc_of_not_setsPc hpc _ _⟩

/-- Settles O31: with its operand resolved, the handler writes the immediate to the register. -/
theorem ldiLoadsTheImmediate : Obligations.LdiLoadsTheImmediate := by
  unfold Obligations.LdiLoadsTheImmediate
  exact fun n imm s r hr => completes_of_setReg (withReg_of_ok hr _) rfl

/-- Settles O32: with its operands resolved, the handler writes the addressed cell's byte to the first register. -/
theorem ldLoadsTheAddressedCell : Obligations.LdLoadsTheAddressedCell := by
  unfold Obligations.LdLoadsTheAddressedCell
  exact fun a b s ra rb ha hb => completes_of_setReg (withRegs_of_ok ha hb _) rfl

/-- Settles O33: with its operands resolved, the handler stores the second register's byte; canonical memory reads it
back. -/
theorem stStoresToTheAddressedCell : Obligations.StStoresToTheAddressedCell := by
  unfold Obligations.StStoresToTheAddressedCell
  refine fun a b s ra rb hmem ha hb => ⟨rfl, completes_of_handler (withRegs_of_ok ha hb _)
    ⟨(Keeps.memWrite s _ _).autoAdvance _, ?_, autoAdvance_pc_of_not_setsPc rfl _ _⟩⟩
  rw [autoAdvance_memRead, memRead_memWrite_same hmem]

end Sys2Proof.Machine
end

section
/-! PROOFS. PUSH, POP, CALL and RET: their effects, their faults and the two laws of the stack (R110 to R115). -/

namespace Sys2Proof.Machine

/-! ### The frame of a push and of a return -/

/-- Two changes in a row keep what neither of them touches. -/
theorem Keeps.trans {regs regs' : List RegIndex} {cells cells' : List Byte} {s u t : State}
    (h : Keeps regs cells s u) (h' : Keeps regs' cells' u t) : Keeps (regs ++ regs') (cells ++ cells') s t where
  reg_kept r hr := by
    rw [List.mem_append, not_or] at hr
    rw [h'.reg_kept r hr.2, h.reg_kept r hr.1]
  cell_kept a ha := by
    rw [List.mem_append, not_or] at ha
    rw [h'.cell_kept a ha.2, h.cell_kept a ha.1]
  ie_kept := h'.ie_kept.trans h.ie_kept
  cfg_kept := h'.cfg_kept.trans h.cfg_kept
  fl_kept := h'.fl_kept.trans h.fl_kept
  out_kept := h'.out_kept.trans h.out_kept
  status_kept := h'.status_kept.trans h.status_kept
  fault_kept := h'.fault_kept.trans h.fault_kept

/-- A jump keeps everything but the pc. -/
theorem Keeps.jumpTo (s : State) (v : Byte) : Keeps [] [] s (s.jumpTo v) where
  toKeepsStorage := .of_eq rfl rfl rfl rfl
  fl_kept := rfl
  out_kept := rfl
  status_kept := rfl
  fault_kept := rfl

/-- The writes PUSH and CALL share, of register 7 and of the cell it then addresses, keep everything else. -/
theorem Keeps.push (s : State) (sp v : Byte) : Keeps [spIndex] [sp] s ((s.setReg spIndex sp).memWrite sp v) :=
  (Keeps.setReg s spIndex sp).trans (Keeps.memWrite _ sp v)

/-- The cell a push writes reads back the pushed byte. -/
theorem memRead_push {s : State} (h : s.mem.wf = true) (sp v : Byte) :
    ((s.setReg spIndex sp).memWrite sp v).memRead sp = v :=
  memRead_memWrite_same (s := s.setReg spIndex sp) h sp v

/-! ### The checked sums at their bounds -/

theorem toByte_of_out_of_range {p : OobPolicy} (hp : p = .fault) (what : RangeKind) {v : Int}
    (hv : ¬(0 ≤ v ∧ v ≤ 255)) : toByte p what v = .error (.outOfRange what v) :=
  inRange_error_iff.2 ⟨hp, hv, rfl⟩

section

variable {s : State}

theorem popPointer_of_ne {r : RegIndex} (h : r ≠ spIndex) : popPointer s r = retPointer s := by
  rw [popPointer, if_neg h, retPointer]

theorem popPointer_spIndex :
    popPointer s spIndex = toByte s.cfg.oob .stackPointer ((s.memRead (s.reg spIndex)).toNat + 1) := rfl

variable (hp : s.cfg.oob = .fault)
include hp

theorem pushPointer_of_zero (h : s.reg spIndex = 0) : pushPointer s = .error (.outOfRange .stackPointer (-1)) := by
  rw [pushPointer, h]
  exact toByte_of_out_of_range hp _ (by decide)

theorem retPointer_of_max (h : s.reg spIndex = 255) : retPointer s = .error (.outOfRange .stackPointer 256) := by
  rw [retPointer, h]
  exact toByte_of_out_of_range hp _ (by decide)

theorem popPointer_spIndex_of_max (h : s.memRead (s.reg spIndex) = 255) :
    popPointer s spIndex = .error (.outOfRange .stackPointer 256) := by
  rw [popPointer_spIndex, h]
  exact toByte_of_out_of_range hp _ (by decide)

theorem returnAddress_of_pc_254 (h : s.pc = 254) : returnAddress s = .error (.outOfRange .returnAddr 256) := by
  rw [returnAddress, h]
  exact toByte_of_out_of_range hp _ (by decide)

end

/-! ### The handlers, with their operand resolved -/

section

variable {n : RegOperand} {s : State} {r : RegIndex} {c : Cause} (hr : regIdx s.cfg.oob n = .ok r)
include hr

theorem handlePop_of_ok {sp : Byte} (hsp : popPointer s r = .ok sp) :
    handlePop n s = .ok ((s.setReg r (s.memRead (s.reg spIndex))).setReg spIndex sp) := by
  rw [handlePop, withReg_of_ok hr, hsp]
  rfl

theorem handlePush_of_pushPointer_error (h : pushPointer s = .error c) : handlePush n s = .error c := by
  rw [handlePush, withReg_of_ok hr, h]
  rfl

theorem handlePop_of_popPointer_error (h : popPointer s r = .error c) : handlePop n s = .error c := by
  rw [handlePop, withReg_of_ok hr, h]
  rfl

/-- The return address is checked first, whatever the stack pointer. -/
theorem handleCall_of_returnAddress_error (h : returnAddress s = .error c) : handleCall n s = .error c := by
  rw [handleCall, withReg_of_ok hr, h]
  rfl

theorem handleCall_of_pushPointer_error {ret : Byte} (hret : returnAddress s = .ok ret)
    (h : pushPointer s = .error c) : handleCall n s = .error c := by
  rw [handleCall, withReg_of_ok hr, hret, h]
  rfl

end

theorem handleRet_of_retPointer_error {s : State} {c : Cause} (h : retPointer s = .error c) :
    handleRet s = .error c := by
  rw [handleRet, h]
  rfl

/-! ### The four instructions -/

/-- Settles O34: the handler writes the decremented pointer, then stores the register as it then is. -/
theorem pushDecrementsThenStores : Obligations.PushDecrementsThenStores := by
  unfold Obligations.PushDecrementsThenStores
  intro n s r hmem hr hsp
  have hpush : pushPointer s = .ok (s.reg spIndex - 1) := pushPointer_ok_iff.2 ⟨hsp, rfl⟩
  refine ⟨hpush, completes_of_handler (handlePush_of_ok hr hpush)
    ⟨(Keeps.push s _ _).autoAdvance _, ?_, ?_, autoAdvance_pc_of_not_setsPc rfl _ _⟩⟩
  · rw [autoAdvance_reg, memWrite_reg]
    exact setReg_reg_same _ _ _
  · rw [autoAdvance_memRead]
    exact (memRead_push hmem _ _).trans (setReg_reg _ _ _ _)

/-- Settles O35: the handler writes the register and then the pointer, which for `POP R7` are one register. -/
theorem popLoadsThenIncrements : Obligations.PopLoadsThenIncrements := by
  unfold Obligations.PopLoadsThenIncrements
  refine fun n s r hr => ⟨fun hr7 hsp => ?_, ?_⟩
  · have hpop : popPointer s r = .ok (s.reg spIndex + 1) := by
      rw [popPointer_of_ne hr7]
      exact retPointer_ok_iff.2 ⟨hsp, rfl⟩
    refine completes_of_handler (handlePop_of_ok hr hpop)
      ⟨((Keeps.setReg s r _).trans (Keeps.setReg _ spIndex _)).autoAdvance _, ?_, ?_,
        autoAdvance_pc_of_not_setsPc rfl _ _⟩
    · rw [autoAdvance_reg, setReg_reg_of_ne _ spIndex _ hr7]
      exact setReg_reg_same _ _ _
    · rw [autoAdvance_reg]
      exact setReg_reg_same _ _ _
  · rintro rfl hsp
    have hpop : popPointer s spIndex = .ok (s.memRead (s.reg spIndex) + 1) := toByte_add_one_ok_iff.2 ⟨hsp, rfl⟩
    have hhandler : handlePop n s = .ok (s.setReg spIndex (s.memRead (s.reg spIndex) + 1)) := by
      rw [handlePop_of_ok (r := spIndex) hr hpop, setReg_setReg_same]
    exact completes_of_setReg hhandler rfl

/-- Settles O36: the handler pushes the return address and jumps to the register as it then is. -/
theorem callPushesTheReturnAddressAndJumps : Obligations.CallPushesTheReturnAddressAndJumps := by
  unfold Obligations.CallPushesTheReturnAddressAndJumps
  intro n s r hmem hr h
  have hpush : pushPointer s = .ok (s.reg spIndex - 1) := pushPointer_ok_iff.2 ⟨h.imp_left And.right, rfl⟩
  have hret : returnAddress s = .ok (BitVec.ofNat 8 (s.pc.toNat + 2)) :=
    returnAddress_ok_iff.2 ⟨h.imp_left And.left, rfl⟩
  refine ⟨hpush, completes_of_handler (handleCall_of_ok hr hpush hret)
    ⟨((Keeps.push s _ _).trans (Keeps.jumpTo _ _)).autoAdvance _, ?_, ?_, ?_⟩⟩
  · rw [autoAdvance_reg, jumpTo_reg, memWrite_reg]
    exact setReg_reg_same _ _ _
  · rw [autoAdvance_memRead, jumpTo_memRead]
    exact (congrArg BitVec.toNat (memRead_push hmem _ _)).trans (BitVec.toNat_ofNat _ _)
  · exact (jumpTo_pc_toNat _ _).trans (congrArg BitVec.toNat (setReg_reg _ _ _ _))

/-- Settles O37: the handler writes the incremented pointer and jumps to the byte it addressed before. -/
theorem retPopsThePc : Obligations.RetPopsThePc := by
  unfold Obligations.RetPopsThePc
  refine fun s hsp => completes_of_handler (handleRet_ok.2 ⟨_, retPointer_ok_iff.2 ⟨hsp, rfl⟩, rfl⟩)
    ⟨((Keeps.setReg s spIndex _).trans (Keeps.jumpTo _ _)).autoAdvance _, ?_, jumpTo_pc_toNat _ _⟩
  rw [autoAdvance_reg, jumpTo_reg]
  exact setReg_reg_same _ _ _

/-- Settles O38: each checked sum fails at its bound, and the handler raises the first that does. -/
theorem stackPointerAndReturnAddressFault : Obligations.StackPointerAndReturnAddressFault := by
  unfold Obligations.StackPointerAndReturnAddressFault
  refine fun n s r hp hr => ⟨fun h0 => ?_, fun hr7 hmax => ?_, ?_, fun hpc => ?_, fun hpc h0 => ?_, fun hmax => ?_⟩
  · exact raises_of_handler (handlePush_of_pushPointer_error hr (pushPointer_of_zero hp h0))
  · have hpop := (popPointer_of_ne hr7).trans (retPointer_of_max hp hmax)
    exact raises_of_handler (handlePop_of_popPointer_error hr hpop)
  · rintro rfl hmax
    exact raises_of_handler (handlePop_of_popPointer_error hr (popPointer_spIndex_of_max hp hmax))
  · exact raises_of_handler (handleCall_of_returnAddress_error hr (returnAddress_of_pc_254 hp hpc))
  · have hret := returnAddress_ok_iff.2 ⟨.inl (by omega : s.pc.toNat + 2 ≤ 255), rfl⟩
    exact raises_of_handler (handleCall_of_pushPointer_error hr hret (pushPointer_of_zero hp h0))
  · exact raises_of_handler (handleRet_of_retPointer_error (retPointer_of_max hp hmax))

/-! ### The two laws of the stack (R115) -/

/-- The next state of an instruction that completes has the property it completes with. -/
theorem Completes.of_exec {i : Instr} {s t : State} {post : State → Prop} (hc : Completes i s post)
    (h : exec i s = .next t) : post t := by
  obtain ⟨t', h', hpost⟩ := hc
  cases h'.symm.trans h
  exact hpost

/-- A PUSH that does not fault had its operand resolved and its stack pointer in range. -/
theorem exec_push_checks {n : RegOperand} {s t : State} (h : exec (.push n) s = .next t) (ht : t.status ≠ .faulted) :
    regIdx s.cfg.oob n = .ok (namedReg n) ∧ (s.reg spIndex ≠ 0 ∨ s.cfg.oob = .wrap) := by
  obtain ⟨u, hu, _⟩ := exec_of_not_faulted h ht
  obtain ⟨hn, sp, hsp, _⟩ := handlePush_ok.1 hu
  exact ⟨regIdx_ok_iff.2 ⟨resolves_one.1 hn, rfl⟩, (pushPointer_ok_iff.1 hsp).1⟩

/-- A CALL that does not fault had its operand resolved, its return address and its stack pointer in range. -/
theorem exec_call_checks {n : RegOperand} {s t : State} (h : exec (.call n) s = .next t) (ht : t.status ≠ .faulted) :
    regIdx s.cfg.oob n = .ok (namedReg n) ∧
      (s.pc.toNat + 2 ≤ 255 ∧ s.reg spIndex ≠ 0 ∨ s.cfg.oob = .wrap) := by
  obtain ⟨hn, ret, hret, sp, hsp, _⟩ := handleCall_ok.1 (exec_of_setsPc h ht rfl)
  refine ⟨regIdx_ok_iff.2 ⟨resolves_one.1 hn, rfl⟩, ?_⟩
  exact and_or_right.2 ⟨(returnAddress_ok_iff.1 hret).1, (pushPointer_ok_iff.1 hsp).1⟩

/-- A stack pointer that a push could decrement, decremented, can be incremented. -/
theorem sub_one_ne_max {x : Byte} (h : x ≠ 0) : x - 1 ≠ 255 := by
  bv_omega

/-- Settles O39: after PUSH both the pointer and, for `PUSH R7`, the pushed byte are one less than register 7 was, so
that POP's increment of either restores it. -/
theorem pushThenPopIsIdentity : Obligations.PushThenPopIsIdentity := by
  unfold Obligations.PushThenPopIsIdentity
  intro n s t hmem _ h ht
  obtain ⟨hr, hsp⟩ := exec_push_checks h (by simp [ht])
  obtain ⟨hkeep, h7, hcell, _⟩ := (pushDecrementsThenStores n s _ hmem hr hsp).2.of_exec h
  rw [← hkeep.cfg_kept] at hr hsp
  have hbase : (if namedReg n = spIndex then t.memRead (t.reg spIndex) else t.reg spIndex) = s.reg spIndex - 1 := by
    split
    next hn => exact (congrArg t.memRead h7).trans (hcell.trans (if_pos hn))
    next => exact h7
  have hpop : popPointer t (namedReg n) = .ok (s.reg spIndex) := by
    rw [popPointer_ok_iff, hbase]
    exact ⟨hsp.imp_left sub_one_ne_max, (BitVec.sub_add_cancel _ _).symm⟩
  refine completes_of_handler (handlePop_of_ok hr hpop) ⟨?_, fun q => ⟨?_, fun a ha => ?_⟩⟩
  · rw [autoAdvance_status]
    exact ht
  · rw [autoAdvance_reg, setReg_reg]
    split
    next hq => rw [hq]
    next hq =>
      rw [setReg_reg]
      split
      next hqn => exact (congrArg t.memRead h7).trans (hcell.trans (by rw [if_neg (hqn ▸ hq), hqn]))
      next => exact hkeep.reg_kept q (mt List.mem_singleton.1 hq)
  · rw [autoAdvance_memRead]
    exact hkeep.cell_kept a (by simpa using ha)

/-- Settles O40: RET finds CALL's pointer and CALL's return address. -/
theorem callThenRetResumes : Obligations.CallThenRetResumes := by
  unfold Obligations.CallThenRetResumes
  intro n s t u hmem _ h ht hcfg h7 hcell
  obtain ⟨hr, hchecks⟩ := exec_call_checks h (by simp [ht])
  obtain ⟨hkeep, hsp, hret, _⟩ := (callPushesTheReturnAddressAndJumps n s _ hmem hr hchecks).2.of_exec h
  have hrange : u.reg 7 ≠ 255 ∨ u.cfg.oob = .wrap := by
    rw [h7, hsp, hcfg, hkeep.cfg_kept]
    exact hchecks.imp_left fun hc => sub_one_ne_max hc.2
  obtain ⟨w, hw, hkeep', hsp', hpc⟩ := retPopsThePc u hrange
  refine ⟨w, hw, ?_, hkeep'.status_kept, ?_⟩
  · rw [hsp', h7, hsp, BitVec.sub_add_cancel]
  · rw [hpc, h7, hcell, hsp, hret]
    cases hp : s.cfg.oob with
    | wrap => rfl
    | fault =>
      have hle : s.pc.toNat + 2 ≤ 255 := (hchecks.resolve_right (by simp [hp])).1
      exact Nat.mod_eq_of_lt (by omega)

end Sys2Proof.Machine
end

section
/-! PROOFS. CMP, JMP and the six conditional jumps, and the order they decide after a CMP (R120 to R129). -/

namespace Sys2Proof.Machine

/-! ### The FL of a comparison (R27, R120) -/

@[simp] theorem flagL_flByte (l g e : Bool) : flagL (flByte l g e) = l := by revert l g e; decide

@[simp] theorem flagG_flByte (l g e : Bool) : flagG (flByte l g e) = g := by revert l g e; decide

@[simp] theorem flagE_flByte (l g e : Bool) : flagE (flByte l g e) = e := by revert l g e; decide

section

variable (x y : Byte)

@[simp] theorem flagL_compareFlags : flagL (compareFlags x y) = decide (x.toNat < y.toNat) := flagL_flByte _ _ _

@[simp] theorem flagG_compareFlags : flagG (compareFlags x y) = decide (y.toNat < x.toNat) := flagG_flByte _ _ _

@[simp] theorem flagE_compareFlags : flagE (compareFlags x y) = decide (x.toNat = y.toNat) := flagE_flByte _ _ _

end

section

variable {x y : Byte}

theorem compareFlags_of_lt (h : x.toNat < y.toNat) : compareFlags x y = 4#8 := by
  rw [compareFlags_eq, if_pos h]

theorem compareFlags_of_gt (h : y.toNat < x.toNat) : compareFlags x y = 2#8 := by
  rw [compareFlags_eq, if_neg h.not_gt, if_pos h]

theorem compareFlags_self : compareFlags x x = 1#8 := by
  rw [compareFlags_eq, if_neg (Nat.lt_irrefl _), if_neg (Nat.lt_irrefl _)]

end

/-! ### CMP and JMP -/

/-- Settles O41: with its operands resolved, the handler writes the FL of the comparison, and the auto-advance passes
the three bytes. -/
theorem cmpSetsExactlyOneFlag : Obligations.CmpSetsExactlyOneFlag := by
  unfold Obligations.CmpSetsExactlyOneFlag
  refine fun a b s ra rb ha hb => completes_of_handler (handleCmp_of_ok ha hb) ⟨KeepsStorage.autoAdvance ?_ _,
    rfl, rfl, rfl, autoAdvance_pc_of_not_setsPc rfl _ _, compareFlags_of_lt, compareFlags_of_gt, fun h => ?_⟩
  · exact .of_eq rfl rfl rfl rfl
  · rw [autoAdvance_fl, setFl_fl, h]
    exact compareFlags_self

/-- Settles O42: with its operand resolved, the handler jumps to the register, and there is no auto-advance. -/
theorem jmpGoesToTheRegister : Obligations.JmpGoesToTheRegister := by
  unfold Obligations.JmpGoesToTheRegister
  exact fun n s r hr => completes_of_handler (withReg_of_ok hr _)
    ⟨(Keeps.jumpTo s _).autoAdvance _, jumpTo_pc_toNat _ _⟩

/-! ### The six conditional jumps -/

/-- The six conditional jumps to the register of one operand byte (R122). -/
def conditionalJumps (n : RegOperand) : List Instr := [.jeq n, .jne n, .jgt n, .jlt n, .jge n, .jle n]

theorem isConditionalJump_of_mem {i : Instr} {n : RegOperand} (hi : i ∈ conditionalJumps n) :
    i.op.isConditionalJump = true ∧ i.regOperands = [n] := by
  simp only [conditionalJumps, List.mem_cons, List.not_mem_nil, or_false] at hi
  rcases hi with rfl | rfl | rfl | rfl | rfl | rfl <;> exact ⟨rfl, rfl⟩

/-- Moving the pc keeps everything else. -/
theorem Keeps.setPc (s : State) (t : PcWord) : Keeps [] [] s (s.setPc t) where
  toKeepsStorage := .of_eq rfl rfl rfl rfl
  fl_kept := rfl
  out_kept := rfl
  status_kept := rfl
  fault_kept := rfl

/-- With its operand resolved, a conditional jump goes to the register if its condition holds of FL, else past its two
bytes, and changes nothing but the pc (R122). -/
theorem completes_of_mem_conditionalJumps {i : Instr} {n : RegOperand} {s : State} {r : RegIndex}
    (hi : i ∈ conditionalJumps n) (hr : regIdx s.cfg.oob n = .ok r) :
    Completes i s fun t => Keeps [] [] s t ∧
      (jumpTaken i s.fl = true → t.pc.toNat = (s.reg r).toNat) ∧
      (jumpTaken i s.fl = false → t.pc = nextPc s.cfg.oob (s.pc.toNat + 2)) := by
  obtain ⟨hjump, hn⟩ := isConditionalJump_of_mem hi
  obtain ⟨m, hm, hhandler⟩ := handler_of_isConditionalJump hjump s
  cases hn.symm.trans hm
  refine completes_of_handler (hhandler.trans (withReg_of_ok hr _)) ?_
  rw [autoAdvance, if_pos (setsPc_of_isConditionalJump hjump)]
  cases jumpTaken i s.fl with
  | true => exact ⟨Keeps.jumpTo s _, fun _ => jumpTo_pc_toNat _ _, nofun⟩
  | false => exact ⟨Keeps.setPc s _, nofun, fun _ => rfl⟩

/-- Settles O43: the bits of FL that the statement lists beside the six jumps are their conditions. -/
theorem conditionalJumpsFollowTheirFlags : Obligations.ConditionalJumpsFollowTheirFlags := by
  unfold Obligations.ConditionalJumpsFollowTheirFlags
  intro n s r hr p hp
  change p ∈ (conditionalJumps n).map fun i => (i, jumpTaken i s.fl) at hp
  obtain ⟨i, hi, rfl⟩ := List.mem_map.1 hp
  exact completes_of_mem_conditionalJumps hi hr

/-! ### The conditional jumps after a CMP (R129) -/

/-- The unsigned order of the compared registers that a conditional jump asks for (R129). -/
def jumpOrder (i : Instr) (x y : Nat) : Bool :=
  match i with
  | .jeq _ => decide (x = y)
  | .jne _ => decide (x ≠ y)
  | .jgt _ => decide (x > y)
  | .jlt _ => decide (x < y)
  | .jge _ => decide (x ≥ y)
  | .jle _ => decide (x ≤ y)
  | _ => false

/-- On the FL of a comparison each condition says its unsigned order: "at least" is greater or equal, "at most" less or
equal. -/
theorem jumpTaken_compareFlags {i : Instr} (hi : i.op.isConditionalJump = true) (x y : Byte) :
    jumpTaken i (compareFlags x y) = jumpOrder i x.toNat y.toNat := by
  cases i
  case jeq => exact flagE_compareFlags x y
  case jne => simp [jumpTaken, jumpOrder]
  case jgt => exact flagG_compareFlags x y
  case jlt => exact flagL_compareFlags x y
  case jge => simp [jumpTaken, jumpOrder, Nat.le_iff_lt_or_eq, eq_comm]
  case jle => simp [jumpTaken, jumpOrder, Nat.le_iff_lt_or_eq]
  all_goals cases hi

/-- CMP with its operands resolved leaves the FL of the comparison (R120). -/
theorem exec_cmp_fl {a b : RegOperand} {s t : State} {ra rb : RegIndex} (ha : regIdx s.cfg.oob a = .ok ra)
    (hb : regIdx s.cfg.oob b = .ok rb) (h : exec (.cmp a b) s = .next t) :
    t.fl = compareFlags (s.reg ra) (s.reg rb) := by
  rw [exec_cmp_of_ok ha hb] at h
  cases h
  exact autoAdvance_fl _ _ _

/-- Settles O44: the conditions read the FL the CMP left, and on it they are the unsigned orders the statement lists. -/
theorem jumpsAfterCmpDecideTheOrder : Obligations.JumpsAfterCmpDecideTheOrder := by
  unfold Obligations.JumpsAfterCmpDecideTheOrder
  intro a b n s t u ra rb r ha hb hcmp hfl hr p hp
  change p ∈ (conditionalJumps n).map fun i => (i, jumpOrder i (s.reg ra).toNat (s.reg rb).toNat) at hp
  obtain ⟨i, hi, rfl⟩ := List.mem_map.1 hp
  have horder : jumpTaken i u.fl = jumpOrder i (s.reg ra).toNat (s.reg rb).toNat := by
    rw [hfl, exec_cmp_fl ha hb hcmp, jumpTaken_compareFlags (isConditionalJump_of_mem hi).1]
  obtain ⟨w, hw, hkeep, htaken, hskipped⟩ := completes_of_mem_conditionalJumps hi hr
  rw [horder] at htaken hskipped
  exact ⟨w, hw, hkeep, htaken, hskipped, horder⟩

end Sys2Proof.Machine
end

section
/-! PROOFS. The ALU instructions: their results, their frame and division by 0 (R140 to R156). -/

namespace Sys2Proof.Machine

/-! ### The functions of the `8bit_alu` on numbers and bits -/

section

variable (x y k : Byte)

theorem aluAdd_toNat : (aluAdd x y).toNat = (x.toNat + y.toNat) % 256 := BitVec.toNat_add x y

theorem aluSub_toNat : ((aluSub x y).toNat : Int) = (x.toNat - y.toNat : Int) % 256 := by
  rw [aluSub, BitVec.toNat_sub]
  omega

theorem aluMul_toNat : (aluMul x y).toNat = x.toNat * y.toNat % 256 := BitVec.toNat_mul x y

theorem aluDiv_toNat : (aluDiv x y).toNat = x.toNat / y.toNat := BitVec.toNat_udiv

theorem aluMod_toNat : (aluMod x y).toNat = x.toNat % y.toNat := BitVec.toNat_umod

theorem aluInc_toNat : (aluInc x).toNat = (x.toNat + 1) % 256 := aluAdd_toNat x 1

theorem aluDec_toNat : ((aluDec x).toNat : Int) = (x.toNat - 1 : Int) % 256 := aluSub_toNat x 1

theorem aluNot_toNat : (aluNot x).toNat = 255 - x.toNat := BitVec.toNat_not

theorem aluAnd_getLsbD (i : Nat) : (aluAnd x y).getLsbD i = (x.getLsbD i && y.getLsbD i) := BitVec.getLsbD_and

theorem aluOr_getLsbD (i : Nat) : (aluOr x y).getLsbD i = (x.getLsbD i || y.getLsbD i) := BitVec.getLsbD_or

theorem aluXor_getLsbD (i : Nat) : (aluXor x y).getLsbD i = Bool.xor (x.getLsbD i) (y.getLsbD i) :=
  BitVec.getLsbD_xor

theorem aluShl_toNat : (aluShl x k).toNat = x.toNat * 2 ^ k.toNat % 256 := by
  rw [aluShl, BitVec.toNat_shiftLeft, Nat.shiftLeft_eq]

theorem aluShr_toNat : (aluShr x k).toNat = x.toNat / 2 ^ k.toNat := by
  rw [aluShr, BitVec.toNat_ushiftRight, Nat.shiftRight_eq_div_pow]

theorem aluShl_eq_zero (hk : 8 ≤ k.toNat) : aluShl x k = 0 := BitVec.shiftLeft_eq_zero hk

theorem aluShr_eq_zero (hk : 8 ≤ k.toNat) : aluShr x k = 0 := BitVec.ushiftRight_eq_zero hk

end

/-! ### The instruction forms -/

/-- An instruction whose handler writes one register has every property that follows from the written value, and changes
nothing else but the pc (R140, R155). -/
theorem completes_of_result {i : Instr} {s : State} {r : RegIndex} {v : Byte} {result : State → Prop}
    (h : handler i s = .ok (s.setReg r v)) (hpc : i.op.setsPc = false) (hv : ∀ t, t.reg r = v → result t) :
    Completes i s fun t => Keeps [r] [] s t ∧
      t.pc = nextPc s.cfg.oob (s.pc.toNat + 1 + i.op.operandCount) ∧ result t := by
  obtain ⟨t, ht, hkeep, hreg, hnext⟩ := completes_of_setReg h hpc
  exact ⟨t, ht, hkeep, hnext, hv t hreg⟩

section

variable {s : State} {a b : RegOperand} {ra rb : RegIndex} (ha : regIdx s.cfg.oob a = .ok ra)
include ha

theorem aluOne_of_ok (f : Byte → Byte) : aluOne f a s = .ok (s.setReg ra (f (s.reg ra))) := withReg_of_ok ha _

variable (hb : regIdx s.cfg.oob b = .ok rb) (f : Byte → Byte → Byte)
include hb

theorem aluTwo_of_ok : aluTwo f a b s = .ok (s.setReg ra (f (s.reg ra) (s.reg rb))) := withRegs_of_ok ha hb _

theorem aluDivide_of_ne (h : s.reg rb ≠ 0) : aluDivide f a b s = .ok (s.setReg ra (f (s.reg ra) (s.reg rb))) := by
  rw [aluDivide, withRegs_of_ok ha hb, if_neg h]

theorem aluDivide_of_zero (h : s.reg rb = 0) : aluDivide f a b s = .error .divisionByZero := by
  rw [aluDivide, withRegs_of_ok ha hb, if_pos h]

end

/-! ### The instructions -/

/-- Settles O45: the handlers write the sum, the difference and the product of the old values. -/
theorem addSubMulWrapModulo256 : Obligations.AddSubMulWrapModulo256 := by
  unfold Obligations.AddSubMulWrapModulo256
  refine fun a b s ra rb ha hb => ⟨completes_of_result (aluTwo_of_ok ha hb aluAdd) rfl fun t ht => ?_,
    completes_of_result (aluTwo_of_ok ha hb aluSub) rfl fun t ht => ?_,
    completes_of_result (aluTwo_of_ok ha hb aluMul) rfl fun t ht => ?_⟩
  · rw [ht, aluAdd_toNat]
  · rw [ht, aluSub_toNat]
  · rw [ht, aluMul_toNat]

/-- Settles O46: past the test of the divisor the handlers write the quotient and the remainder of the old values. -/
theorem divAndModDivideUnsigned : Obligations.DivAndModDivideUnsigned := by
  unfold Obligations.DivAndModDivideUnsigned
  refine fun a b s ra rb ha hb hne => ⟨completes_of_result (aluDivide_of_ne ha hb aluDiv hne) rfl fun t ht => ?_,
    completes_of_result (aluDivide_of_ne ha hb aluMod hne) rfl fun t ht => ?_⟩
  · rw [ht, aluDiv_toNat]
  · rw [ht, aluMod_toNat]

/-- Settles O47: with the operands resolved the test of the divisor fails, and the raised fault changes nothing but the
record and the status (R172). -/
theorem divisionByZeroRaises : Obligations.DivisionByZeroRaises := by
  unfold Obligations.DivisionByZeroRaises
  exact fun a b s ra rb ha hb hzero => ⟨raises_of_handler (aluDivide_of_zero ha hb aluDiv hzero),
    raises_of_handler (aluDivide_of_zero ha hb aluMod hzero)⟩

/-- Settles O48: the handlers write the old value plus 1, minus 1 and complemented, and ask neither for the policy nor
for the register. -/
theorem incDecNotChangeTheRegister : Obligations.IncDecNotChangeTheRegister := by
  unfold Obligations.IncDecNotChangeTheRegister
  refine fun a s ra ha => ⟨completes_of_result (aluOne_of_ok ha aluInc) rfl fun t ht => ?_,
    completes_of_result (aluOne_of_ok ha aluDec) rfl fun t ht => ?_,
    completes_of_result (aluOne_of_ok ha aluNot) rfl fun t ht => ?_⟩
  · rw [ht, aluInc_toNat]
  · rw [ht, aluDec_toNat]
  · rw [ht, aluNot_toNat]

/-- Settles O49: the handlers write the and, the or and the exclusive or of the old values. -/
theorem logicWorksBitByBit : Obligations.LogicWorksBitByBit := by
  unfold Obligations.LogicWorksBitByBit
  refine fun a b s ra rb ha hb => ⟨completes_of_result (aluTwo_of_ok ha hb aluAnd) rfl fun t ht i _ => ?_,
    completes_of_result (aluTwo_of_ok ha hb aluOr) rfl fun t ht i _ => ?_,
    completes_of_result (aluTwo_of_ok ha hb aluXor) rfl fun t ht i _ => ?_⟩
  · rw [ht, aluAnd_getLsbD]
  · rw [ht, aluOr_getLsbD]
  · rw [ht, aluXor_getLsbD]

/-- Settles O50: the handlers write the old value shifted by the second register, of which nothing is left from 8 on. -/
theorem shiftsUseTheWholeAmount : Obligations.ShiftsUseTheWholeAmount := by
  unfold Obligations.ShiftsUseTheWholeAmount
  refine fun a b s ra rb ha hb => ⟨completes_of_result (aluTwo_of_ok ha hb aluShl) rfl fun t ht => ?_,
    completes_of_result (aluTwo_of_ok ha hb aluShr) rfl fun t ht => ?_⟩
  · rw [ht]
    exact ⟨aluShl_toNat _ _, aluShl_eq_zero _ _⟩
  · rw [ht]
    exact ⟨aluShr_toNat _ _, aluShr_eq_zero _ _⟩

end Sys2Proof.Machine
end

section
/-! PROOFS. What the fetch raises, in the order of R174. -/

namespace Sys2Proof.Machine

section

variable {s : State}

/-- A fetch that cannot reach its opcode byte raises that fault, with no opcode (R82, R172). -/
theorem fetch_of_fetchOpcode_error {c : Cause} (h : fetchOpcode s = .error c) : fetch s = .error (none, c) := by
  simp [fetch, h]

/-- A row that is neither INT nor IRET, with an operand byte out of reach, raises that fault (R84). -/
theorem fetch_of_fetchOperands_error {ir : Byte} {op : Op} {c : Cause} (hir : fetchOpcode s = .ok ir)
    (h : s.cfg.opcodeMap.lookup ir = some op) (hop : ¬(op = .int ∨ op = .iret))
    (hops : fetchOperands s op.operandCount = .error c) : fetch s = .error (some ir, c) := by
  simp [fetch, hir, h, hop, hops]

/-- The first operand byte is fetched before the second (R84). -/
theorem fetchOperands_of_first_error {c : Cause} (h : fetchOperand s 1 = .error c) {n : Nat} (hn : 1 ≤ n) :
    fetchOperands s n = .error c := by
  unfold fetchOperands
  split
  · omega
  · rw [h]; rfl
  · rw [h]; rfl

variable (hp : s.cfg.oob = .fault)
include hp

/-- The first operand byte after an opcode byte in the last cell is out of range (R84, D8). -/
theorem fetchOperands_at_255 (h : s.pc = 255) {n : Nat} (hn : 1 ≤ n) :
    fetchOperands s n = .error (.outOfRange .operandAddr 256) := by
  have h1 : fetchOperand s 1 = .error (.outOfRange .operandAddr 256) := by
    rw [fetchOperand_error hp (by simp [h]), h]
    rfl
  exact fetchOperands_of_first_error h1 hn

/-- The second operand byte after an opcode byte in the last cell but one is out of range (R84, D8). -/
theorem fetchOperands_two_at_254 (h : s.pc = 254) :
    fetchOperands s 2 = .error (.outOfRange .operandAddr 256) := by
  rw [fetchOperands_two, fetchOperand_ok (.inl (by simp [h])), fetchOperand_error hp (by simp [h]), h]
  rfl

end

/-- Settles O13: each fault is what the fetch gives, and the checks before it have passed by the premises. -/
theorem fetchRaisesTheFirstFault : Obligations.FetchRaisesTheFirstFault := by
  unfold Obligations.FetchRaisesTheFirstFault
  refine fun s hs => ⟨fun hp hpc => step_of_fetch_error hs (fetch_of_fetchOpcode_error (fetchOpcode_error hp hpc)), ?_⟩
  rintro ir hpc rfl
  have hir := fetchOpcode_ok hpc
  refine ⟨fun hnone => step_of_fetch_error hs (fetch_of_lookup_none hir hnone), fun op hop =>
    ⟨fun hint => step_of_fetch_error hs (fetch_of_int_or_iret hir hop hint), fun hint hiret hp => ?_⟩⟩
  have raises {c : Cause} (hops : fetchOperands s op.operandCount = .error c) :=
    step_of_fetch_error hs (fetch_of_fetchOperands_error hir hop (not_or.2 ⟨hint, hiret⟩) hops)
  exact ⟨fun h hN => raises (fetchOperands_at_255 hp h hN),
    fun h hN => raises (hN ▸ fetchOperands_two_at_254 hp h)⟩

end Sys2Proof.Machine
end

section
/-! PROOFS. The causes of a fault, and that every fault is precise (R171 to R173). -/

namespace Sys2Proof.Machine

/-! ### The causes past the opcode fetch -/

/-- What can be raised once the opcode byte is read: `OutOfRange` under `fault` alone, and not for the fetch address
(R171, R174). -/
def PastOpcode (p : OobPolicy) (c : Cause) : Prop :=
  ∀ k v, c = .outOfRange k v → p = .fault ∧ k ≠ .fetchAddr

theorem pastOpcode_illegalInstruction (p : OobPolicy) : PastOpcode p .illegalInstruction := fun _ _ h => by cases h

theorem pastOpcode_divisionByZero (p : OobPolicy) : PastOpcode p .divisionByZero := fun _ _ h => by cases h

/-- Under `wrap` no `OutOfRange` is left (R171). -/
theorem PastOpcode.of_wrap {c : Cause} (h : PastOpcode .wrap c) : c = .illegalInstruction ∨ c = .divisionByZero := by
  cases c with
  | illegalInstruction => exact .inl rfl
  | divisionByZero => exact .inr rfl
  | outOfRange k v => cases (h k v rfl).1

/-- The computation raises only such causes. -/
def RaisesPastOpcode {α : Type} (p : OobPolicy) (x : Checked α) : Prop := ∀ c, x = .error c → PastOpcode p c

section

variable {α β : Type} {p : OobPolicy} {s : State}

theorem raisesPastOpcode_ok (a : α) : RaisesPastOpcode p (.ok a : Checked α) := fun _ h => by cases h

theorem raisesPastOpcode_illegalInstruction : RaisesPastOpcode p (.error .illegalInstruction : Checked α) := by
  rintro c ⟨⟩
  exact pastOpcode_illegalInstruction p

theorem raisesPastOpcode_inRange {what : RangeKind} (hw : what ≠ .fetchAddr) (v : Int) :
    RaisesPastOpcode p (inRange p what v) := by
  intro c h
  obtain ⟨hp, _, rfl⟩ := inRange_error_iff.1 h
  rintro k w ⟨⟩
  exact ⟨hp, hw⟩

theorem raisesPastOpcode_toByte {what : RangeKind} (hw : what ≠ .fetchAddr) (v : Int) :
    RaisesPastOpcode p (toByte p what v) := raisesPastOpcode_inRange hw v

theorem raisesPastOpcode_regIdx (n : RegOperand) : RaisesPastOpcode p (regIdx p n) := by
  intro c h
  obtain ⟨hp, _, rfl⟩ := regIdx_error_iff.1 h
  rintro k w ⟨⟩
  exact ⟨hp, by decide⟩

theorem RaisesPastOpcode.bind {x : Checked α} {f : α → Checked β} (hx : RaisesPastOpcode p x)
    (hf : ∀ a, RaisesPastOpcode p (f a)) : RaisesPastOpcode p (x.bind f) := by
  intro c h
  obtain h | ⟨a, _, h⟩ := bind_error_iff.1 h
  · exact hx c h
  · exact hf a c h

theorem RaisesPastOpcode.map {x : Checked α} (hx : RaisesPastOpcode p x) (f : α → β) :
    RaisesPastOpcode p (x.map f) := by
  cases x with
  | ok a => exact raisesPastOpcode_ok _
  | error c => rintro c ⟨⟩; exact hx c rfl

theorem withReg_raisesPastOpcode {n : RegOperand} {f : RegIndex → Checked State}
    (hf : ∀ r, RaisesPastOpcode s.cfg.oob (f r)) : RaisesPastOpcode s.cfg.oob (withReg s n f) :=
  (raisesPastOpcode_regIdx n).bind hf

theorem withRegs_raisesPastOpcode {a b : RegOperand} {f : RegIndex → RegIndex → Checked State}
    (hf : ∀ ra rb, RaisesPastOpcode s.cfg.oob (f ra rb)) : RaisesPastOpcode s.cfg.oob (withRegs s a b f) :=
  withReg_raisesPastOpcode fun ra => withReg_raisesPastOpcode (hf ra)

theorem aluDivide_raisesPastOpcode {f : Byte → Byte → Byte} {a b : RegOperand} :
    RaisesPastOpcode s.cfg.oob (aluDivide f a b s) := by
  refine withRegs_raisesPastOpcode fun ra rb => ?_
  split
  · rintro c ⟨⟩
    exact pastOpcode_divisionByZero _
  · exact raisesPastOpcode_ok _

/-- No handler raises a fault of the opcode fetch, and none raises `OutOfRange` under `wrap`. -/
theorem handler_raisesPastOpcode (i : Instr) (s : State) : RaisesPastOpcode s.cfg.oob (handler i s) := by
  have stack {v : Int} : RaisesPastOpcode s.cfg.oob (toByte s.cfg.oob .stackPointer v) :=
    raisesPastOpcode_toByte (by decide) v
  have ret : RaisesPastOpcode s.cfg.oob (returnAddress s) := raisesPastOpcode_toByte (by decide) _
  cases i <;> simp only [handler]
  case nop | hlt => exact raisesPastOpcode_ok _
  case int | iret => exact raisesPastOpcode_illegalInstruction
  case ld | st | cmp | add | sub | mul | and | or | xor | shl | shr =>
    exact withRegs_raisesPastOpcode fun _ _ => raisesPastOpcode_ok _
  case div | mod => exact aluDivide_raisesPastOpcode
  case ldi | prn | pra | jmp | jeq | jne | jgt | jlt | jle | jge | inc | dec | not =>
    exact withReg_raisesPastOpcode fun _ => raisesPastOpcode_ok _
  case push | pop => exact withReg_raisesPastOpcode fun _ => stack.bind fun _ => raisesPastOpcode_ok _
  case call =>
    exact withReg_raisesPastOpcode fun _ => ret.bind fun _ => stack.bind fun _ => raisesPastOpcode_ok _
  case ret => exact stack.bind fun _ => raisesPastOpcode_ok _

/-- The operand fetches raise `OutOfRange(OperandAddr)` under `fault` alone (R84). -/
theorem fetchOperands_raisesPastOpcode (s : State) (n : Nat) : RaisesPastOpcode s.cfg.oob (fetchOperands s n) := by
  have operand (k : Nat) : RaisesPastOpcode s.cfg.oob (fetchOperand s k) :=
    (raisesPastOpcode_inRange (by decide) _).map _
  unfold fetchOperands
  split
  · exact raisesPastOpcode_ok _
  · exact (operand 1).map _
  · exact (operand 1).bind fun _ => (operand 2).map _

/-! ### A step that ends FAULTED -/

/-- What a fetch can raise: the fetch address, or with the byte at the pc a cause past it (R174). -/
theorem fetch_error {opcode : Option Byte} {c : Cause} (h : fetch s = .error (opcode, c)) :
    (s.cfg.oob = .fault ∧ 256 ≤ s.pc.toNat ∧ opcode = none ∧ c = .outOfRange .fetchAddr s.pc.toNat) ∨
    (opcode = some (s.memRead (BitVec.ofNat 8 s.pc.toNat)) ∧ PastOpcode s.cfg.oob c) := by
  by_cases hpc : s.pc.toNat ≤ 255 ∨ s.cfg.oob = .wrap
  · refine .inr ?_
    have hir := fetchOpcode_ok hpc
    cases hop : s.cfg.opcodeMap.lookup (s.memRead (BitVec.ofNat 8 s.pc.toNat)) with
    | none =>
      cases (fetch_of_lookup_none hir hop).symm.trans h
      exact ⟨rfl, pastOpcode_illegalInstruction _⟩
    | some op =>
      by_cases hint : op = .int ∨ op = .iret
      · cases (fetch_of_int_or_iret hir hop hint).symm.trans h
        exact ⟨rfl, pastOpcode_illegalInstruction _⟩
      · cases hops : fetchOperands s op.operandCount with
        | ok operands => cases (fetch_of_fetchOperands hir hop hint hops).symm.trans h
        | error c' =>
          cases (fetch_of_fetchOperands_error hir hop hint hops).symm.trans h
          exact ⟨rfl, fetchOperands_raisesPastOpcode s _ _ hops⟩
  · obtain ⟨hgt, hwrap⟩ := not_or.1 hpc
    have hp := (oob_cases s).resolve_right hwrap
    have hpc : 256 ≤ s.pc.toNat := by omega
    cases (fetch_of_fetchOpcode_error (fetchOpcode_error hp hpc)).symm.trans h
    exact .inl ⟨hp, hpc, rfl, rfl⟩

/-- A running machine's step that ends FAULTED has raised the fetch address, or with the byte at the pc a cause past it
(R172, R174). -/
theorem step_faulted {t : State} (hs : s.status = .running) (h : step s = .next t) (ht : t.status = .faulted) :
    (s.cfg.oob = .fault ∧ 256 ≤ s.pc.toNat ∧ t = s.raise none (.outOfRange .fetchAddr s.pc.toNat)) ∨
    ∃ c, PastOpcode s.cfg.oob c ∧ t = s.raise (some (s.memRead (BitVec.ofNat 8 s.pc.toNat))) c := by
  rcases hf : fetch s with ⟨opcode, c⟩ | i
  · cases (step_of_fetch_error hs hf).symm.trans h
    obtain ⟨hp, hpc, rfl, rfl⟩ | ⟨rfl, hc⟩ := fetch_error hf
    · exact .inl ⟨hp, hpc, rfl⟩
    · exact .inr ⟨c, hc, rfl⟩
  · rw [step_of_fetch_ok hs hf] at h
    obtain ⟨c, hc, rfl⟩ := exec_of_faulted h (by simp [hs]) ht
    obtain ⟨hop, _⟩ := fetch_ok hf
    rw [OpcodeMap.byteOf_of_lookup hop]
    exact .inr ⟨c, handler_raisesPastOpcode i s c hc, rfl⟩

end

/-- Settles O15: under `wrap` the opcode fetch raises nothing, and nothing past it raises `OutOfRange`. -/
theorem wrapPolicyNeverRaisesOutOfRange : Obligations.WrapPolicyNeverRaisesOutOfRange := by
  unfold Obligations.WrapPolicyNeverRaisesOutOfRange
  intro s t hwrap hs h ht
  obtain ⟨hp, _⟩ | ⟨c, hc, rfl⟩ := step_faulted hs h ht
  · cases hwrap.symm.trans hp
  · exact ⟨_, rfl, PastOpcode.of_wrap (hwrap ▸ hc)⟩

/-- Settles O16: raising changes nothing but the record and the status, and only the opcode fetch has no opcode. -/
theorem faultsArePrecise : Obligations.FaultsArePrecise := by
  unfold Obligations.FaultsArePrecise
  intro s t hs h ht
  obtain ⟨_, hpc, rfl⟩ | ⟨c, hc, rfl⟩ := step_faulted hs h ht
  · exact ⟨rfl, rfl, rfl, rfl, rfl, rfl, rfl, _, rfl, rfl, fun _ => ⟨rfl, hpc⟩, fun hne => absurd rfl (hne _)⟩
  · exact ⟨rfl, rfl, rfl, rfl, rfl, rfl, rfl, _, rfl, rfl, fun ⟨v, hv⟩ => absurd rfl (hc _ v hv).2, fun _ => rfl⟩

end Sys2Proof.Machine
end

section
/-! PROOFS. A run ends only by HLT or a raised fault (R87, R170). -/

namespace Sys2Proof.Machine

/-- HLT alone writes the status (R34, R89). -/
theorem handler_status {i : Instr} {s u : State} (hi : i ≠ .hlt) (h : handler i s = .ok u) : u.status = s.status := by
  cases i
  case hlt => exact absurd rfl hi
  case nop => rw [handleNop_ok.1 h]
  case int | iret => cases h
  case ldi | prn | pra | jmp => obtain ⟨_, ⟨⟩⟩ := withReg_ok.1 h; rfl
  case ld | st | cmp => obtain ⟨_, ⟨⟩⟩ := withRegs_ok.1 h; rfl
  case push => obtain ⟨_, _, _, rfl⟩ := handlePush_ok.1 h; rfl
  case pop => obtain ⟨_, _, _, rfl⟩ := handlePop_ok.1 h; rfl
  case call => obtain ⟨_, _, _, _, _, rfl⟩ := handleCall_ok.1 h; rfl
  case ret => obtain ⟨_, _, rfl⟩ := handleRet_ok.1 h; rfl
  case jeq | jne | jgt | jlt | jle | jge =>
    rw [(jumpIf_ok.1 h).2]
    split
    · rfl
    · rfl
  case add | sub | mul | and | or | xor | shl | shr => rw [(aluTwo_ok.1 h).2, setReg_status]
  case div | mod => rw [(aluDivide_ok.1 h).2.2, setReg_status]
  case inc | dec | not => rw [(aluOne_ok.1 h).2, setReg_status]

/-- A running machine's step halts exactly when the fetched instruction is HLT (R89). -/
theorem step_halted_iff {s t : State} (hs : s.status = .running) (h : step s = .next t) :
    t.status = .halted ↔ fetch s = .ok .hlt := by
  constructor
  · intro ht
    obtain ⟨hne, _⟩ | ⟨_, ⟨o, c, _, rfl⟩ | ⟨i, hf, ⟨u, hu, rfl⟩ | ⟨c, _, rfl⟩⟩⟩ := step_cases h
    · exact absurd hs hne
    · cases ht
    · by_cases hi : i = .hlt
      · rw [hf, hi]
      · rw [autoAdvance_status, handler_status hi hu, hs] at ht
        cases ht
    · cases ht
  · intro hf
    cases (step_of_fetch_ok hs hf).symm.trans h
    rfl

/-- Settles O17: HLT alone writes HALTED, FAULTED comes with the raise of `step_faulted`, and a stopped run stays. -/
theorem runEndsOnlyByHltOrFault : Obligations.RunEndsOnlyByHltOrFault := by
  unfold Obligations.RunEndsOnlyByHltOrFault
  refine ⟨fun s t hs h => ⟨step_halted_iff hs h, fun ht => ?_⟩, fun k s hstop => runFor_of_stopped ?_⟩
  · obtain ⟨_, _, ht⟩ | ⟨c, _, ht⟩ := step_faulted hs h ht
    · exact ⟨_, _, ht⟩
    · exact ⟨_, c, ht⟩
  · rcases hstop with h | h <;> simp [h]

end Sys2Proof.Machine
end

section
/-! PROOFS. The length of an instruction and the advance of the pc (R60, R61, R209). -/

namespace Sys2Proof

/-- A conditional jump has one operand byte (R60, R122). -/
theorem Op.operandCount_of_isConditionalJump {op : Op} (h : op.isConditionalJump = true) : op.operandCount = 1 := by
  revert h
  cases op <;> decide

/-- The encoding is the opcode byte and the operand bytes the mnemonic declares (R67). -/
theorem length_encode (m : OpcodeMap) (i : Instr) : (encode m i).length = 1 + i.op.operandCount := by
  rw [encode, List.length_cons, i.length_operandBytes, Nat.add_comm]

namespace Machine

/-- A conditional jump leaves the pc past its bytes or at its register (R122). -/
theorem exec_conditionalJump_pc_cases {i : Instr} {s t : State} (h : exec i s = .next t) (ht : t.status ≠ .faulted)
    (hi : i.op.isConditionalJump = true) :
    t.pc = nextPc s.cfg.oob (s.pc.toNat + (1 + i.op.operandCount)) ∨
      ∃ n ∈ i.regOperands, t.pc.toNat = (s.reg (namedReg n)).toNat := by
  obtain ⟨n, hn, hpc⟩ := exec_conditionalJump_pc h ht hi
  rw [Op.operandCount_of_isConditionalJump hi]
  split at hpc
  · exact .inr ⟨n, hn, hpc⟩
  · exact .inl hpc

/-- Settles O10: R65 makes bits 7:6 of the opcode byte the declared operand count, which the encoding and the advance
follow. -/
theorem advanceIsOnePlusDeclaredOperandCount : Obligations.AdvanceIsOnePlusDeclaredOperandCount := by
  unfold Obligations.AdvanceIsOnePlusDeclaredOperandCount
  refine ⟨fun m i hm => ?_, fun i s t hm _ h ht => ?_⟩
  · obtain ⟨hN, _⟩ := OpcodeMap.fields_of_wf hm i.op
    rw [hN]
    exact ⟨length_encode m i, i.op.operandCount_le_two⟩
  · obtain ⟨hN, _⟩ := OpcodeMap.fields_of_wf hm i.op
    rw [hN]
    refine ⟨fun hi => ?_, exec_conditionalJump_pc_cases h ht⟩
    rw [← Nat.add_assoc]
    exact exec_pc_of_not_setsPc h ht hi

end Machine

end Sys2Proof
end

section
/-! PROOFS. The load of an image (R202, R204). -/

namespace Sys2Proof.Machine

/-- A load leaves the cells before its first. -/
theorem Memory.read_load_of_lt (m : Memory) {a k : Nat} (bytes : List Byte) (h : a < k) :
    (m.load k bytes).read a = m.read a := by
  induction bytes generalizing m k with
  | nil => rfl
  | cons v bytes ih =>
    calc ((m.write k v).load (k + 1) bytes).read a
        = (m.write k v).read a := ih _ (Nat.lt_succ_of_lt h)
      _ = m.read a := Memory.read_write_ne m v (Nat.ne_of_lt h)

/-- After a load from cell `k` on, cell `k + j` reads byte `j` of the image, and past the image what it held. -/
theorem Memory.read_load {m : Memory} (hm : m.wf = true) {k : Nat} (bytes : List Byte) (hk : k + bytes.length ≤ 256)
    (j : Nat) : (m.load k bytes).read (k + j) = (bytes[j]?).getD (m.read (k + j)) := by
  induction bytes generalizing m k j with
  | nil => rfl
  | cons v bytes ih =>
    rw [List.length_cons] at hk
    rw [Memory.load]
    cases j with
    | zero =>
      rw [Nat.add_zero k, Memory.read_load_of_lt _ _ (Nat.lt_add_one k), Memory.read_write_same hm]
      rfl
    | succ j =>
      have hw : (m.write k v).wf = true := Memory.wf_write hm (by omega) v
      have hcell : k + (j + 1) = k + 1 + j := by omega
      rw [hcell, ih hw (by omega), Memory.read_write_ne m v (by omega), List.getElem?_cons_succ]

/-- Settles O25: the length decides between the load and the refusal, and the loaded memory is canonical and reads the
image. -/
theorem loadCopiesTheImage : Obligations.LoadCopiesTheImage := by
  unfold Obligations.LoadCopiesTheImage
  refine fun s bytes hm => ⟨fun hlen => ?_, fun hlen => if_neg (Nat.not_le.2 hlen)⟩
  have hlen : 0 + bytes.length ≤ 256 := by omega
  refine ⟨{ s with mem := s.mem.load 0 bytes }, if_pos (by omega), Memory.wf_load hm 0 bytes hlen, rfl, fun a => ?_⟩
  have hread := Memory.read_load hm bytes hlen a.toNat
  rwa [Nat.zero_add] at hread

end Sys2Proof.Machine
end
